-- ==== Sys2Proof/Word.lean ====
section
/-! DEFINITION. The widths of the values the block handles (spec 00_scope.md R6, R8; 10_state.md R19, R20). -/

namespace Sys2Proof

/-- One register, one raw word, one address or one count: `u16` (R6 `WORD_BITS`, `ADDR_BITS`, `COUNT_BITS`). -/
abbrev Word := BitVec 16

/-- A binary32 value as its bit pattern (R8, R70). -/
abbrev F32 := BitVec 32

/-- A temperature: `i8`, two's complement (R8, R50). -/
abbrev Temperature := BitVec 8

/-- A FaultSet `f[8:0]`: flag `n` is bit `n` (R19). -/
abbrev FaultSet := BitVec 9

/-- An hourmeter: `u24` (R20). -/
abbrev Hourmeter := BitVec 24

/-- An `alarm_daily`: a 32-bit value whose low byte is 0 (R20, R113). -/
abbrev AlarmDaily := BitVec 32

/-- Who issued a request. Callers are told apart and nothing more (60_exceptions.md R179). -/
abbrev Caller := Nat

end Sys2Proof
end

