-- ==== Sys2Proof/Config.lean ====
section
/-! DEFINITION. The constants of the block, all fixed by the spec (00_scope.md R6, 40_scale_codec.md R71, 20_memory.md R29), and the
free values, which no rule fixes. -/

namespace Sys2Proof.Config

/-! ## The parameter table of R6 -/

abbrev wordBits : Nat := 16
abbrev addrBits : Nat := 16
abbrev countBits : Nat := 16
abbrev statusWords : Nat := 44
abbrev statusBlocks : Nat := 2
abbrev statusBlockWords : Nat := 22
abbrev statusBaseA : Nat := 0x0008
abbrev statusBaseB : Nat := 0x001E
abbrev statusUsedWords : Nat := 11
abbrev logSlots : Nat := 32
abbrev slotWords : Nat := 16
abbrev logWords : Nat := 512
abbrev logBase : Nat := 0x8000
abbrev stateMin : Nat := 0
abbrev stateMax : Nat := 8
abbrev stateCount : Nat := 9
abbrev faultMask : Word := 0x01FF
abbrev faultCount : Nat := 9
abbrev sentinelZero : Hourmeter := 0x000000
abbrev sentinelOnes : Hourmeter := 0xFFFFFF
abbrev maxAttempts : Nat := 3

/-- `RETRY_WAIT`, in milliseconds. No meaning reads it: the wait is a step (R146, R203, R204). -/
abbrev retryWaitMs : Nat := 100

/-- The serial line's settings, applied by the transport collaborator and read by no meaning (R6, R178). -/
structure SerialLine where
  baud : Nat
  parity : Bool
  dataBits : Nat
  stopBits : Nat
  deviceAddr : Nat
deriving DecidableEq, Repr

def serialLine : SerialLine :=
  { baud := 9600, parity := false, dataBits := 8, stopBits := 2, deviceAddr := 0x01 }

/-! ## The scale table of R71, as binary32 patterns -/

/-- `FS_VOLT` = 100.0. -/
abbrev fsVolt : F32 := 0x42C80000
/-- `FS_CURR` = 79.16. -/
abbrev fsCurr : F32 := 0x429E51EC
/-- `AH_STEP` = 0.1. -/
abbrev ahStep : F32 := 0x3DCCCCCD
/-- `SCALE_DIV` = 32768.0. -/
abbrev scaleDiv : F32 := 0x47000000

/-! ## The address map of R29 -/

/-- What the source fixes of a run of device registers. -/
inductive RegionKind
  | notInSource    -- only `RD_BLOCK` can reach it; what a read answers is the transport's (N9)
  | statusBlockA   -- 0x0008-0x0012 are the eleven consumed fields (R14), the rest is ignored (R15)
  | statusBlockB   -- read and ignored (R15)
  | logRegion      -- 32 slots of 16 registers (R16)
deriving DecidableEq, Repr

structure Region where
  base : Nat
  size : Nat
  kind : RegionKind
deriving DecidableEq, Repr

/-- R29's table. `RD_BLOCK` does not check it (R150), so no meaning reads it. -/
def addressMap : List Region :=
  [ ⟨0x0000, 8, .notInSource⟩, ⟨0x0008, 22, .statusBlockA⟩, ⟨0x001E, 22, .statusBlockB⟩,
    ⟨0x0034, 32716, .notInSource⟩, ⟨0x8000, 512, .logRegion⟩, ⟨0x8200, 32256, .notInSource⟩ ]

/-! ## Free values (entry 13)

The spec defines `fmul` and `fdiv` for finite operands (R76, U19 "any finite fs") and gives no result when an operand is an
infinity or a NaN, or the divisor is a zero. DESIGN CHOICE: that one value is free. No operation of the block reaches one. -/

opaque undefinedProduct : F32 → F32 → F32
opaque undefinedQuotient : F32 → F32 → F32

end Sys2Proof.Config
end

