-- ==== Sys2Proof/Syntax.lean ====
section
/-! DEFINITION. Requests as they arrive (30_encoding.md R45-R47) and the fifteen operations (R48, opcode_table.json). -/

namespace Sys2Proof

/-- A buffer operand: a sequence of exactly `n` words, the length part of its type (R47: "a model makes the length part of the
operand's type, so that it cannot be formed"). -/
structure Buffer (n : Nat) where
  words : List Word
  length_words : words.length = n
deriving DecidableEq, Repr

/-- A request as it stands at the port: the 36-bit command word and the buffer beside it (R45). The words of `buf` may be of any
number here; `decode` refuses the wrong ones. -/
structure Request where
  cmd : BitVec 36
  buf : List Word
deriving DecidableEq, Repr

/-- One constructor per row of the opcode table, carrying exactly the operands the operation uses (R48; the unused fields are
ignored, R51). -/
inductive Instr
  | scaleV (a : Word)
  | scaleI (a : Word)
  | scaleAH (a : Word)
  | temp (a : Word)
  | decState (a : Word)
  | decFault (a : Word)
  | fsUnion (a b : FaultSet)
  | fsInter (a b : FaultSet)
  | fsEq (a b : FaultSet)
  | decStatus (buf : Buffer 44)
  | decLogday (slot : Buffer 16)
  | buildLog (buf : Buffer 512)
  | rdStatus
  | rdLogged
  | rdBlock (a b : Word)
deriving DecidableEq, Repr

end Sys2Proof
end

