-- ==== Sys2Proof/WellFormed.lean ====
section
/-! DEFINITION. Which requests are requests of this machine (30_encoding.md R47, R61), and which are in the form an assembler
writes (R51). Every `Instr` is well formed by its type: lengths and widths are in it. -/

namespace Sys2Proof

/-- `len(buf)` per operation code (R47). -/
def operandLength (op : Nat) : Nat :=
  match op with
  | 0x9 => 44
  | 0xA => 16
  | 0xB => 512
  | _ => 0

/-- The buffer has the length its operation code fixes. The reserved code 0xF names no operation and is answered before anything
is read (R61, R172), whatever the buffer (DEDUCED, entry 7). -/
def Request.wellFormed (r : Request) : Bool :=
  let op := (r.cmd.extractLsb' 32 4).toNat
  op == 0xF || r.buf.length == operandLength op

/-- The bits of `cmd` that an operation uses: a mask over 36 bits (R51). -/
def usedMask (op : Nat) : BitVec 36 :=
  match op with
  | 0x0 | 0x1 | 0x2 | 0x3 | 0x4 | 0x5 => 0xF0000FFFF
  | 0x6 | 0x7 | 0x8 => 0xF01FF01FF
  | 0xE => 0xFFFFFFFFF
  | _ => 0xF00000000

/-- The form an assembler writes: every bit the operation does not use is zero (R51). -/
def Request.canonical (r : Request) : Bool :=
  r.cmd &&& usedMask (r.cmd.extractLsb' 32 4).toNat == r.cmd

end Sys2Proof
end

