-- ==== Sys2Proof/Decode.lean ====
section
/-! DEFINITION. The request decoder, total on every command word and buffer, the encoder, and the opcode table's words
(30_encoding.md R45-R48, R51, R61, R62). -/

namespace Sys2Proof

/-- Why a request is no instruction. -/
inductive DecodeError
  | reservedOp (op : BitVec 4)
  | bufferLength (op : BitVec 4) (len : Nat)
deriving DecidableEq, Repr

/-- `op = cmd[35:32]` (R46). -/
def opField (cmd : BitVec 36) : BitVec 4 := cmd.extractLsb' 32 4

/-- `b = cmd[31:16]` (R46). -/
def bField (cmd : BitVec 36) : Word := cmd.extractLsb' 16 16

/-- `a = cmd[15:0]` (R46). -/
def aField (cmd : BitVec 36) : Word := cmd.extractLsb' 0 16

/-- The FaultSet an operand word carries: bits 8:0, bits 15:9 ignored (R51, R92). -/
def faultSetField (w : Word) : FaultSet := w.extractLsb' 0 9

/-- An operation without a buffer operand: `len(buf) = 0` (R47). -/
def withoutBuffer (r : Request) (i : Instr) : Except DecodeError Instr :=
  if r.buf.length = 0 then .ok i else .error (.bufferLength (opField r.cmd) r.buf.length)

/-- An operation with a buffer operand of `n` words (R47). -/
def withBuffer (n : Nat) (r : Request) (i : Buffer n → Instr) : Except DecodeError Instr :=
  if h : r.buf.length = n then .ok (i ⟨r.buf, h⟩) else .error (.bufferLength (opField r.cmd) r.buf.length)

/-- R48: `op` and nothing else selects the operation; the fields it does not use are not looked at (R51). -/
def decode (r : Request) : Except DecodeError Instr :=
  let a := aField r.cmd
  let b := bField r.cmd
  match (opField r.cmd).toNat with
  | 0x0 => withoutBuffer r (.scaleV a)
  | 0x1 => withoutBuffer r (.scaleI a)
  | 0x2 => withoutBuffer r (.scaleAH a)
  | 0x3 => withoutBuffer r (.temp a)
  | 0x4 => withoutBuffer r (.decState a)
  | 0x5 => withoutBuffer r (.decFault a)
  | 0x6 => withoutBuffer r (.fsUnion (faultSetField a) (faultSetField b))
  | 0x7 => withoutBuffer r (.fsInter (faultSetField a) (faultSetField b))
  | 0x8 => withoutBuffer r (.fsEq (faultSetField a) (faultSetField b))
  | 0x9 => withBuffer 44 r .decStatus
  | 0xA => withBuffer 16 r .decLogday
  | 0xB => withBuffer 512 r .buildLog
  | 0xC => withoutBuffer r .rdStatus
  | 0xD => withoutBuffer r .rdLogged
  | 0xE => withoutBuffer r (.rdBlock a b)
  | _ => .error (.reservedOp (opField r.cmd))

/-- `cmd = op * 2^32 + b * 2^16 + a` (R46). -/
def packCmd (op : BitVec 4) (b a : Word) : BitVec 36 := op ++ b ++ a

/-- A FaultSet as an operand word, the ignored bits written as zero (R51). -/
def faultSetWord (f : FaultSet) : Word := f.setWidth 16

/-- The request an assembler writes for an instruction: unused fields zero (R48, R51). -/
def encode (i : Instr) : Request :=
  match i with
  | .scaleV a => ⟨packCmd 0x0 0 a, []⟩
  | .scaleI a => ⟨packCmd 0x1 0 a, []⟩
  | .scaleAH a => ⟨packCmd 0x2 0 a, []⟩
  | .temp a => ⟨packCmd 0x3 0 a, []⟩
  | .decState a => ⟨packCmd 0x4 0 a, []⟩
  | .decFault a => ⟨packCmd 0x5 0 a, []⟩
  | .fsUnion a b => ⟨packCmd 0x6 (faultSetWord b) (faultSetWord a), []⟩
  | .fsInter a b => ⟨packCmd 0x7 (faultSetWord b) (faultSetWord a), []⟩
  | .fsEq a b => ⟨packCmd 0x8 (faultSetWord b) (faultSetWord a), []⟩
  | .decStatus buf => ⟨packCmd 0x9 0 0, buf.words⟩
  | .decLogday slot => ⟨packCmd 0xA 0 0, slot.words⟩
  | .buildLog buf => ⟨packCmd 0xB 0 0, buf.words⟩
  | .rdStatus => ⟨packCmd 0xC 0 0, []⟩
  | .rdLogged => ⟨packCmd 0xD 0 0, []⟩
  | .rdBlock a b => ⟨packCmd 0xE b a, []⟩

/-- The request that a word of the opcode table stands for: the word's low `nbits` bits are the command word, and the buffer
operand, to which the table gives no bits, is zero words. A word with a bit above bit 35 is no command word (entry 16). -/
def tableRequest (nbits w : Nat) : Option Request :=
  let v := w % 2 ^ nbits
  if v < 2 ^ 36 then some ⟨BitVec.ofNat 36 v, List.replicate (operandLength (v / 2 ^ 32)) 0⟩ else none

/-- The instruction the decoder reads from a word of the opcode table. -/
def decodeTableWord (nbits w : Nat) : Option Instr :=
  match tableRequest nbits w with
  | none => none
  | some r =>
    match decode r with
    | .ok i => some i
    | .error _ => none

end Sys2Proof
end

