-- ==== Sys2Proof/Machine/State.lean ====
section
/-! DEFINITION. The machine's state as plain data (10_state.md), the values its operations produce, the moves of the agents around
it, and reset. -/

namespace Sys2Proof.Machine

/-! ## Value types (10_state.md R18-R21) -/

/-- "one of exactly nine values", named by number (R19, D9). -/
inductive OperatingState
  | state0 | state1 | state2 | state3 | state4 | state5 | state6 | state7 | state8
deriving DecidableEq, Repr

/-- R18: the eleven fields of a decoded status buffer. -/
structure StatusSnapshot where
  batteryVoltage : F32
  solarVoltage : F32
  loadVoltage : F32
  batteryCurrent : F32
  loadCurrent : F32
  heatsinkTemp : Temperature
  batteryTemp : Temperature
  ambientTemp : Temperature
  remoteTemp : Temperature
  state : OperatingState
  faults : FaultSet
deriving DecidableEq, Repr

/-- R20: the seven fields of a decoded log slot. -/
structure LogDayRecord where
  hourmeter : Hourmeter
  alarmDaily : AlarmDaily
  batteryVoltageMin : F32
  batteryVoltageMax : F32
  batteryChargeDaily : F32
  loadChargeDaily : F32
  arrayVoltageMax : F32
deriving DecidableEq, Repr

/-! ## Responses (30_encoding.md R49, R50; 60_exceptions.md R165) -/

/-- The result of an operation that ends OK, by type (R50). -/
inductive Result
  | f32 (bits : F32)
  | temperature (t : Temperature)
  | operatingState (st : OperatingState)
  | faultSet (f : FaultSet)
  | boolean (v : Bool)
  | snapshot (s : StatusSnapshot)
  | logDay (r : Option LogDayRecord)
  | logCollection (rs : List LogDayRecord)
  | words (ws : List Word)
deriving DecidableEq, Repr

/-- The four error responses, kept apart as R175 asks. -/
inductive ErrorResponse
  | unknownState (raw : Word)
  | unknownFaultBits (raw : Word)
  | transportError (addr : Word)
  | illegalOp (op : BitVec 4)
deriving DecidableEq, Repr

/-- A response: a result, or an error and no result at all (R49). -/
inductive Response
  | ok (r : Result)
  | err (e : ErrorResponse)
deriving DecidableEq, Repr

/-! ## The reader's state (10_state.md R22) -/

inductive Conn
  | closed
  | opened
deriving DecidableEq, Repr

inductive Lock
  | free
  | held (c : Caller)
deriving DecidableEq, Repr

inductive Phase
  | idle
  | attempting
  | success
  | exhausted
deriving DecidableEq, Repr

/-- Which logical read: its block list is R145's, or the one block of `RD_BLOCK` (R140, R150). -/
inductive ReadKind
  | status
  | log
  | block (addr count : Word)
deriving DecidableEq, Repr

/-- `logical_read(c, B)`: for whom, and which (R142). -/
structure Job where
  caller : Caller
  kind : ReadKind
deriving DecidableEq, Repr

/-- What the transport answers to one attempt: `Err`, or words, as many as it likes (20_memory.md R25). -/
inductive Answer
  | err
  | ok (words : List Word)
deriving DecidableEq, Repr

/-- One thing the reader has done towards the transport: an answered attempt `MemRead(addr, count)`, or a completed wait. -/
inductive BusEvent
  | memRead (caller : Caller) (addr : Word) (count : Nat) (answer : Answer)
  | waited (caller : Caller)
deriving DecidableEq, Repr

/-! ## The agents' moves (entry 1) -/

/-- One move of one agent (46_block_reader.md R141, R156; 20_memory.md R37; 70_reset_and_hazards.md R191). -/
inductive Move
  /-- A caller issues a request (R45, R156). -/
  | request (c : Caller) (r : Request)
  /-- The transport collaborator opens the connection: the boot step (R191). -/
  | connect
  /-- A waiting caller takes the lock; which one, LOCK_ORDER leaves open (R37). -/
  | acquire (c : Caller)
  /-- The transport answers the attempt in progress (R25). -/
  | answer (a : Answer)
  /-- The reader's own action: it ends a wait (R146), or ends a logical read (R141). -/
  | reader
deriving DecidableEq, Repr

/-! ## State -/

/-- The state of the block (`conn` to `waiting`) and its inputs and outputs as plain data (`agenda` to `history`). -/
structure State where
  /-- The transport connection (R22, R191). -/
  conn : Conn
  /-- The one lock (R37). -/
  lock : Lock
  /-- The state machine of the logical read (R141). -/
  phase : Phase
  /-- The logical read in progress, none when Idle (R142; entry 3). -/
  job : Option Job
  /-- The index of the block being read (R22). -/
  k : Nat
  /-- Which attempt of block `k` is in progress (R22). -/
  attempt : Nat
  /-- The words of the blocks read so far, in address order (R22). -/
  asm : List Word
  /-- The 100 ms wait between two attempts is in progress (R146; entry 12). -/
  waiting : Bool
  /-- The callers blocked on the lock, each with its logical read (R22; entry 17). -/
  waiters : List Job
  /-- The model's own: the moves to come (entry 1). -/
  agenda : List Move
  /-- The model's own: who issued the request being executed (entry 4). -/
  caller : Caller
  /-- The model's own: the responses given, oldest first (entry 4). -/
  responses : List (Caller × Response)
  /-- The model's own: the history TRANSPORT may depend on, oldest first (R25; entry 14). -/
  history : List BusEvent
deriving DecidableEq, Repr

/-- Reset (10_state.md R24, 70_reset_and_hazards.md R190). `k`, `attempt`, `job`, `waiting` and the model's own fields: DESIGN
CHOICE, entries 1, 3, 4, 14. -/
def State.reset : State :=
  { conn := .closed, lock := .free, phase := .idle, job := none, k := 0, attempt := 1, asm := [], waiting := false,
    waiters := [], agenda := [], caller := 0, responses := [], history := [] }

/-- Why the machine stops with a fault. -/
inductive Fault
  /-- Raised by the reader when its own fields contradict one another (a logical read without a job, a block index past its block
  list, a finished buffer of the wrong length). No run from reset reaches such a state. Safe: the machine stops (entry 21). -/
  | readerInconsistent
deriving DecidableEq, Repr

/-- Why a request gets no meaning. -/
inductive Refusal
  /-- Raised by `exec`'s arm for an instruction that has no meaning yet; no arm is left in that form. Safe. -/
  | notModelled (mnemonic : String)
  /-- Raised by `RD_STATUS`, `RD_LOGGED`, `RD_BLOCK` while the connection is closed: "this spec refuses to give that case a meaning"
  (R191, D30, U13). Safe (entry 5). -/
  | connectionClosed
  /-- Raised when a request's buffer has another length than its operation fixes: "not a request of this machine" (R47, U18). Safe
  (entry 6). -/
  | malformedRequest
deriving DecidableEq, Repr

/-- The result of a meaning and of a step. -/
abbrev Outcome := Host.Outcome State Fault Refusal

end Sys2Proof.Machine
end

