-- ==== Sys2Proof/Machine/Float.lean ====
section
/-! DEFINITION. Binary32 arithmetic: each operation computed exactly on natural numbers and rounded once, to nearest, ties to even
(40_scale_codec.md R70; 00_scope.md R8). Magnitudes are counted in units of 2^-149, the smallest positive binary32. -/

namespace Sys2Proof.Machine

/-- Bits 30:23. -/
def expField (x : F32) : Nat := (x.extractLsb' 23 8).toNat

/-- Bits 22:0. -/
def fracField (x : F32) : Nat := (x.extractLsb' 0 23).toNat

/-- Neither an infinity nor a NaN. -/
def isFinite (x : F32) : Bool := expField x != 255

/-- The integer significand: the leading 1 is implied when the exponent field is not 0. -/
def significand (x : F32) : Nat := if expField x = 0 then fracField x else 2 ^ 23 + fracField x

/-- A finite value is `significand x * 2 ^ (scaleExp x - 150)`, with its sign. -/
def scaleExp (x : F32) : Nat := max (expField x) 1

/-- The magnitude of a finite value, in units of 2^-149. -/
def units (x : F32) : Nat := significand x * 2 ^ (scaleExp x - 1)

/-- The integer nearest to `num / den`, the even one of two equally near. -/
def nearestEven (num den : Nat) : Nat :=
  let q := num / den
  let r := num % den
  if 2 * r < den then q else if den < 2 * r then q + 1 else q + q % 2

/-- How many binary places the 24-bit significand of a magnitude of `num / den` units stands above the lowest one. -/
def placesAbove (num den : Nat) : Nat := Nat.log2 (num / den) - 23

/-- `num / den` units rounded to binary32, as bits 30:0 (before the largest finite value is passed). -/
def roundedMagnitude (num den : Nat) : Nat :=
  let t := placesAbove num den
  nearestEven num (den * 2 ^ t) + t * 2 ^ 23

/-- Sign bit and magnitude; what rounds above the largest finite value is the infinity (PRESUMED: IEEE 754, entry 13). -/
def packF32 (negative : Bool) (magnitude : Nat) : F32 :=
  BitVec.ofBool negative ++ BitVec.ofNat 31 (min magnitude 0x7F800000)

/-- `to_f32(n)`: exact for `n < 2^24` (R8, R70). -/
def toF32 (n : Nat) : F32 := packF32 false (roundedMagnitude (n * 2 ^ 149) 1)

/-- `fmul(a, b)`: the exact product rounded once (R70). In units it is `significand a * significand b * 2 ^ (e - 151)` for the sum `e`
of the two exponents; a negative power stands as a divisor. -/
def fmul (a b : F32) : F32 :=
  if isFinite a && isFinite b then
    let e := scaleExp a + scaleExp b
    packF32 (a.msb ^^ b.msb) (roundedMagnitude (significand a * significand b * 2 ^ (e - 151)) (2 ^ (151 - e)))
  else Config.undefinedProduct a b

/-- `fdiv(a, b)`: the exact quotient rounded once (R70). In units it is `significand a * 2 ^ (e - scaleExp b) / significand b`; a
negative power stands as a divisor. -/
def fdiv (a b : F32) : F32 :=
  if isFinite a && isFinite b && significand b != 0 then
    let e := scaleExp a + 149
    packF32 (a.msb ^^ b.msb)
      (roundedMagnitude (significand a * 2 ^ (e - scaleExp b)) (significand b * 2 ^ (scaleExp b - e)))
  else Config.undefinedQuotient a b

end Sys2Proof.Machine
end

