-- ==== Sys2Proof/Machine/Operands.lean ====
section
/-! DEFINITION. The ways an operation reads its operands: bytes of a word, words of a buffer, the byte reversal, the two packed
fields of a log slot, and the slots of a log buffer (00_scope.md R8; 30_encoding.md R52-R58; 44_log_unpacker.md R111, R113). -/

namespace Sys2Proof.Machine

/-- `hi(w) = w[15:8]` (R8). -/
def hiByte (w : Word) : BitVec 8 := w.extractLsb' 8 8

/-- `lo(w) = w[7:0]` (R8). -/
def loByte (w : Word) : BitVec 8 := w.extractLsb' 0 8

/-- `zext_32(w)` (R8, R64). -/
def zext32 (w : Word) : BitVec 32 := w.setWidth 32

/-- `sext_N(t)`: a temperature on a wider path (R8, R50). -/
def sextTemperature (n : Nat) (t : Temperature) : BitVec n := t.signExtend n

/-- `bswap32(v) = {v[7:0], v[15:8], v[23:16], v[31:24]}`, a function of the value (R8, R120). -/
def bswap32 (v : BitVec 32) : BitVec 32 :=
  v.extractLsb' 0 8 ++ v.extractLsb' 8 8 ++ v.extractLsb' 16 8 ++ v.extractLsb' 24 8

/-- `{hi, lo}` as the source forms it: `(hi << 16) | lo` on 32 bits (R110, R111). -/
def joinWords (high low : Word) : BitVec 32 := (zext32 high <<< 16) ||| zext32 low

/-- `as_i8(raw[7:0])` (R53, R75): the low byte, read as two's complement. -/
def temperatureField (raw : Word) : Temperature := loByte raw

/-- Step 1 of R110, R111: `bswap32` of the joined words with the least significant byte cleared; its top byte is 0. -/
def hourmeterField (w0 w1 : Word) : Hourmeter := (bswap32 (joinWords w0 w1 &&& 0xFFFFFF00)).setWidth 24

/-- Step 2 of R110, R113, to the letter (D10, C2; entry 18). -/
def alarmField (w1 w2 : Word) : AlarmDaily := bswap32 (joinWords w1 w2 &&& 0x00FFFFFF)

/-- The 24 significant bits of an alarm, `alarm_daily[31:8]` (R57, R113, U5). -/
def alarmSignificant (alarm : AlarmDaily) : BitVec 24 := alarm.extractLsb' 8 24

/-- `buf[i]`, counted from 0 (R47). -/
def bufferWord {n : Nat} (buf : Buffer n) (i : Fin n) : Word :=
  buf.words.get (i.cast buf.length_words.symm)

/-- `buf[16*i .. 16*i + 15]`, slot `i` of a RawLogBuffer (R16, R130). -/
def logSlot (buf : Buffer 512) (i : Fin 32) : Buffer 16 :=
  ⟨(buf.words.drop (16 * i)).take 16, by
    have h := buf.length_words
    have hi := i.isLt
    simp only [List.length_take, List.length_drop]
    omega⟩

/-- The 32 slots in address order (R130). -/
def logSlots (buf : Buffer 512) : List (Buffer 16) := (List.finRange 32).map (logSlot buf)

/-- A word sequence as a buffer of `n` words, when it has that many. -/
def asBuffer (n : Nat) (ws : List Word) : Option (Buffer n) :=
  if h : ws.length = n then some ⟨ws, h⟩ else none

end Sys2Proof.Machine
end

