-- ==== Sys2Proof/Machine/Flags.lean ====
section
/-! DEFINITION. The machine has no condition codes and no status flags that one operation sets and another reads (10_state.md R13).
The three outputs that look like flags are plain results: a response's status, the sentinel verdict, the bits of a FaultSet. -/

namespace Sys2Proof.Machine

/-- `status` of a response (30_encoding.md R49, 60_exceptions.md R165). -/
def Response.status (r : Response) : BitVec 3 :=
  match r with
  | .ok _ => 0
  | .err (.unknownState _) => 1
  | .err (.unknownFaultBits _) => 2
  | .err (.transportError _) => 3
  | .err (.illegalOp _) => 4

/-- `info[15:0]` of a response (R49). -/
def Response.info (r : Response) : Word :=
  match r with
  | .ok _ => 0
  | .err (.unknownState raw) => raw
  | .err (.unknownFaultBits raw) => raw
  | .err (.transportError addr) => addr
  | .err (.illegalOp op) => op.setWidth 16

/-- `result` of a response: absent when the status is not OK (R49). -/
def Response.result (r : Response) : Option Result :=
  match r with
  | .ok v => some v
  | .err _ => none

/-- The width of a result in bits; none for the records and sequences, which have no packing (R50). -/
def Result.width (r : Result) : Option Nat :=
  match r with
  | .f32 _ => some 32
  | .temperature _ => some 8
  | .operatingState _ => some 4
  | .faultSet _ => some 9
  | .boolean _ => some 1
  | .snapshot _ => none
  | .logDay _ => none
  | .logCollection _ => none
  | .words ws => some (16 * ws.length)

/-- The 4-bit unsigned integer that stands for a state (R19, R50). -/
def OperatingState.number (st : OperatingState) : BitVec 4 :=
  match st with
  | .state0 => 0
  | .state1 => 1
  | .state2 => 2
  | .state3 => 3
  | .state4 => 4
  | .state5 => 5
  | .state6 => 6
  | .state7 => 7
  | .state8 => 8

/-- `FAULT_n` of a FaultSet: bit `n` (R19, R90). -/
def faultFlag (f : FaultSet) (n : Fin 9) : Bool := f.getLsbD n

/-- The sentinel verdict, on the 24-bit hourmeter only (44_log_unpacker.md R114, R59). -/
def isSentinel (h : Hourmeter) : Bool := h == Config.sentinelZero || h == Config.sentinelOnes

end Sys2Proof.Machine
end

