-- ==== Sys2Proof/Machine/Ops.lean ====
section
/-! DEFINITION. The named operations over State that the meanings share: giving a response, raising an error, the lock, and the
reader's own transitions (30_encoding.md R49; 60_exceptions.md R173; 20_memory.md R37; 46_block_reader.md R141-R147). -/

namespace Sys2Proof.Machine

/-! ## Responses and errors -/

/-- A response goes to its caller and to nobody else (R181); nothing else changes. -/
def State.answerTo (s : State) (c : Caller) (r : Response) : State :=
  { s with responses := s.responses ++ [(c, r)] }

/-- The request being executed ends OK with its result (R49). -/
def respond (r : Result) (s : State) : Outcome := .next (s.answerTo s.caller (.ok r))

/-- The analogue of taking an exception: the request ends with an error in place of its result. It saves nothing and changes
nothing: no cause register, no saved address, no mode change, no vector (R173); there is no return from it (R174). -/
def raise (e : ErrorResponse) (s : State) : Outcome := .next (s.answerTo s.caller (.err e))

/-- An operation that yields a result or raises its first error. -/
def complete (r : Except ErrorResponse Result) (s : State) : Outcome :=
  match r with
  | .ok v => respond v s
  | .error e => raise e s

/-! ## The connection and the lock -/

/-- The boot step (R191): `conn <- open`. -/
def State.connect (s : State) : State := { s with conn := .opened }

/-- `acquire(c)` followed by the `Idle -> Attempting` transition: `k <- 0`, `attempt <- 1`, `asm <- []` (R37, R142, R143). -/
def State.beginRead (s : State) (j : Job) : State :=
  { s with lock := .held j.caller, phase := .attempting, job := some j, k := 0, attempt := 1, asm := [], waiting := false }

/-- A caller whose `acquire` is not enabled waits (R37). -/
def State.enqueue (s : State) (j : Job) : State := { s with waiters := s.waiters ++ [j] }

/-- `acquire` is enabled: the lock is free (R37) and the reader is Idle (R141; entry 9). -/
def State.canAcquire (s : State) : Bool := s.lock == .free && s.phase == .idle

/-! ## The reader's transitions (R141) -/

/-- The history grows by one event (R25). -/
def State.record (s : State) (e : BusEvent) : State := { s with history := s.history ++ [e] }

/-- An attempt of block `k` succeeded and `k` is not the last block. -/
def State.nextBlock (s : State) (ws : List Word) : State :=
  { s with asm := s.asm ++ ws, k := s.k + 1, attempt := 1 }

/-- An attempt of the last block succeeded: append the words, release the lock. -/
def State.succeed (s : State) (ws : List Word) : State :=
  { s with asm := s.asm ++ ws, phase := .success, lock := .free }

/-- An attempt failed and one is left: the wait begins (R146). -/
def State.beginWait (s : State) : State := { s with waiting := true }

/-- The wait is over: the next attempt of the same block (R141, R146). -/
def State.endWait (s : State) : State := { s with waiting := false, attempt := s.attempt + 1 }

/-- The last attempt failed: discard `asm`, release the lock (R147). -/
def State.exhaust (s : State) : State := { s with asm := [], phase := .exhausted, lock := .free }

/-- The logical read is over: the reader's per-read state back to its idle values (R141, R148; entry 11). -/
def State.endRead (s : State) : State :=
  { s with phase := .idle, job := none, k := 0, attempt := 1, asm := [], waiting := false }

end Sys2Proof.Machine
end

