-- ==== Sys2Proof/Machine/Scale.lean ====
section
/-! DEFINITION. The scale unit: SCALE_V, SCALE_I, SCALE_AH, TEMP (40_scale_codec.md R70-R82). -/

namespace Sys2Proof.Machine

/-- `scale(raw, fs) = fdiv(fmul(to_f32(raw), fs), 0x47000000)`, in that order (R76, R193). -/
def scale (raw : Word) (fs : F32) : F32 := fdiv (fmul (toF32 raw.toNat) fs) Config.scaleDiv

/-- R72. -/
def scaleVolt (raw : Word) : F32 := scale raw Config.fsVolt

/-- R73. -/
def scaleCurr (raw : Word) : F32 := scale raw Config.fsCurr

/-- R74: one multiplication, no division. -/
def scaleAmpHours (raw : Word) : F32 := fmul (toF32 raw.toNat) Config.ahStep

/-- SCALE_V (R72). -/
def execScaleV (a : Word) (s : State) : Outcome := respond (.f32 (scaleVolt a)) s

/-- SCALE_I (R73). -/
def execScaleI (a : Word) (s : State) : Outcome := respond (.f32 (scaleCurr a)) s

/-- SCALE_AH (R74). -/
def execScaleAH (a : Word) (s : State) : Outcome := respond (.f32 (scaleAmpHours a)) s

/-- TEMP (R75). -/
def execTemp (a : Word) (s : State) : Outcome := respond (.temperature (temperatureField a)) s

end Sys2Proof.Machine
end

