-- ==== Sys2Proof/Machine/LogUnit.lean ====
section
/-! DEFINITION. The log record unit: DEC_LOGDAY (44_log_unpacker.md R110-R121). -/

namespace Sys2Proof.Machine

/-- The five steps of R110. A sentinel slot yields `none` and nothing else (R114); no other check is made (R117) and the voltage
words are read as they stand (R115, R118). -/
def decodeLogDay (slot : Buffer 16) : Option LogDayRecord :=
  let hourmeter := hourmeterField (bufferWord slot 0) (bufferWord slot 1)
  let alarmDaily := alarmField (bufferWord slot 1) (bufferWord slot 2)
  if isSentinel hourmeter then none
  else
    some
      { hourmeter := hourmeter
        alarmDaily := alarmDaily
        batteryVoltageMin := scaleVolt (bufferWord slot 3)
        batteryVoltageMax := scaleVolt (bufferWord slot 4)
        batteryChargeDaily := scaleAmpHours (bufferWord slot 5)
        loadChargeDaily := scaleAmpHours (bufferWord slot 6)
        arrayVoltageMax := scaleVolt (bufferWord slot 9) }

/-- DEC_LOGDAY (R110): a sentinel is a normal OK answer. -/
def execDecLogday (slot : Buffer 16) (s : State) : Outcome := respond (.logDay (decodeLogDay slot)) s

end Sys2Proof.Machine
end

