-- ==== Sys2Proof/Machine/LogSequencer.lean ====
section
/-! DEFINITION. The log sequencer: BUILD_LOG (45_log_collection.md R130-R136). -/

namespace Sys2Proof.Machine

/-- Puts a record before the first one whose hourmeter is not smaller (unsigned 24-bit compare, R131). -/
def insertByHourmeter (r : LogDayRecord) (rs : List LogDayRecord) : List LogDayRecord :=
  match rs with
  | [] => [r]
  | q :: qs => if r.hourmeter ≤ q.hourmeter then r :: q :: qs else q :: insertByHourmeter r qs

/-- `stable_sort_ascending(kept, key = hourmeter)`: equal keys keep their order (R131). -/
def sortByHourmeter (rs : List LogDayRecord) : List LogDayRecord :=
  match rs with
  | [] => []
  | r :: rest => insertByHourmeter r (sortByHourmeter rest)

/-- The records of the slots that are not sentinels, in address order (R130, R132). -/
def keptRecords (buf : Buffer 512) : List LogDayRecord := (logSlots buf).filterMap decodeLogDay

/-- R130. -/
def logCollection (buf : Buffer 512) : List LogDayRecord := sortByHourmeter (keptRecords buf)

/-- BUILD_LOG (R130): no failure path. -/
def execBuildLog (buf : Buffer 512) (s : State) : Outcome := respond (.logCollection (logCollection buf)) s

end Sys2Proof.Machine
end

