-- ==== Sys2Proof/Machine/FaultUnit.lean ====
section
/-! DEFINITION. The fault flag unit: DEC_FAULT, FS_UNION, FS_INTER, FS_EQ (42_fault_extractor.md R90-R96). -/

namespace Sys2Proof.Machine

/-- R90, R91: bits 15:9 must be 0; the error carries the whole word. The complement of the mask is taken at 16 bits (R64). -/
def decodeFault (raw : Word) : Except ErrorResponse FaultSet :=
  if raw &&& ~~~Config.faultMask = 0 then .ok (raw.extractLsb' 0 9) else .error (.unknownFaultBits raw)

/-- DEC_FAULT (R90). -/
def execDecFault (a : Word) (s : State) : Outcome := complete ((decodeFault a).map .faultSet) s

/-- FS_UNION (R92). -/
def execFsUnion (a b : FaultSet) (s : State) : Outcome := respond (.faultSet (a ||| b)) s

/-- FS_INTER (R93). -/
def execFsInter (a b : FaultSet) (s : State) : Outcome := respond (.faultSet (a &&& b)) s

/-- FS_EQ (R94). -/
def execFsEq (a b : FaultSet) (s : State) : Outcome := respond (.boolean (a == b)) s

end Sys2Proof.Machine
end

