-- ==== Sys2Proof/Machine/StateDecoder.lean ====
section
/-! DEFINITION. The state decoder unit: DEC_STATE (41_state_decoder.md R85-R88). -/

namespace Sys2Proof.Machine

/-- R85, R87: 0 to 8 select one state each; any other word raises UnknownState with the whole word. There is no default (R86). -/
def decodeState (raw : Word) : Except ErrorResponse OperatingState :=
  match raw.toNat with
  | 0 => .ok .state0
  | 1 => .ok .state1
  | 2 => .ok .state2
  | 3 => .ok .state3
  | 4 => .ok .state4
  | 5 => .ok .state5
  | 6 => .ok .state6
  | 7 => .ok .state7
  | 8 => .ok .state8
  | _ => .error (.unknownState raw)

/-- DEC_STATE (R85). -/
def execDecState (a : Word) (s : State) : Outcome := complete ((decodeState a).map .operatingState) s

end Sys2Proof.Machine
end

