-- ==== Sys2Proof/Machine/StatusSequencer.lean ====
section
/-! DEFINITION. The status sequencer: DEC_STATUS (43_status_decoder.md R100-R104). -/

namespace Sys2Proof.Machine

/-- R100: offsets 0 to 10, each by its unit; the state word is decoded before the fault word (R101), and either failure is the
whole operation's (R102). -/
def decodeStatus (buf : Buffer 44) : Except ErrorResponse StatusSnapshot :=
  match decodeState (bufferWord buf 9) with
  | .error e => .error e
  | .ok state =>
    match decodeFault (bufferWord buf 10) with
    | .error e => .error e
    | .ok faults =>
      .ok
        { batteryVoltage := scaleVolt (bufferWord buf 0)
          solarVoltage := scaleVolt (bufferWord buf 1)
          loadVoltage := scaleVolt (bufferWord buf 2)
          batteryCurrent := scaleCurr (bufferWord buf 3)
          loadCurrent := scaleCurr (bufferWord buf 4)
          heatsinkTemp := temperatureField (bufferWord buf 5)
          batteryTemp := temperatureField (bufferWord buf 6)
          ambientTemp := temperatureField (bufferWord buf 7)
          remoteTemp := temperatureField (bufferWord buf 8)
          state := state
          faults := faults }

/-- DEC_STATUS (R100). -/
def execDecStatus (buf : Buffer 44) (s : State) : Outcome := complete ((decodeStatus buf).map .snapshot) s

end Sys2Proof.Machine
end

