-- ==== Sys2Proof/Machine/Reader.lean ====
section
/-! DEFINITION. The block reader: RD_STATUS, RD_LOGGED, RD_BLOCK, its state machine (46_block_reader.md R140-R156), and the
procedures of R142 and R144 as functions of the transport's answers. -/

namespace Sys2Proof.Machine

/-- One block read: base address and number of words. -/
structure Block where
  addr : Word
  count : Nat
deriving DecidableEq, Repr

/-- The block lists, in the order they are issued (R145); `RD_BLOCK` reads the one block it is given, unchecked (R150). -/
def ReadKind.blocks (kind : ReadKind) : List Block :=
  match kind with
  | .status => [⟨0x0008, 22⟩, ⟨0x001E, 22⟩]
  | .log => (List.range 32).map fun i => ⟨BitVec.ofNat 16 (Config.logBase + 16 * i), 16⟩
  | .block a b => [⟨a, b.toNat⟩]

/-- The words of an answer that counts as a success: `Ok(words)` with `len(words) = n`. Everything else is a failed attempt, its
words discarded (R144, D16). -/
def Answer.wordsOf (a : Answer) (n : Nat) : Option (List Word) :=
  match a with
  | .err => none
  | .ok ws => if ws.length = n then some ws else none

/-! ## The meanings -/

/-- The start of every reader operation: `conn = open` is its premise (R191); `acquire(c)` and the first transition when the lock can
be had, else the caller waits (R37, R142). -/
def startRead (kind : ReadKind) (s : State) : Outcome :=
  match s.conn with
  | .closed => .refused .connectionClosed
  | .opened =>
    if s.canAcquire then .next (s.beginRead ⟨s.caller, kind⟩) else .next (s.enqueue ⟨s.caller, kind⟩)

/-- RD_STATUS (R148). -/
def execRdStatus (s : State) : Outcome := startRead .status s

/-- RD_LOGGED (R149). -/
def execRdLogged (s : State) : Outcome := startRead .log s

/-- RD_BLOCK (R150). -/
def execRdBlock (a b : Word) (s : State) : Outcome := startRead (.block a b) s

/-! ## The state machine (R141) -/

/-- A waiting caller takes the free lock (R37). Not enabled while the lock is held or the reader is not Idle, or for a caller that
does not wait: then nothing happens. -/
def acquireLock (c : Caller) (s : State) : Outcome :=
  match s.waiters.find? (fun j => j.caller == c) with
  | none => .next s
  | some j =>
    if s.canAcquire then .next (({ s with waiters := s.waiters.erase j } : State).beginRead j) else .next s

/-- The attempt of the block in progress has succeeded with `ws` (R141, R142). -/
def blockRead (j : Job) (ws : List Word) (s : State) : State :=
  if s.k + 1 < j.kind.blocks.length then s.nextBlock ws else s.succeed ws

/-- The attempt of the block in progress has failed (R141, R144, R147). -/
def attemptFailed (s : State) : State := if s.attempt < Config.maxAttempts then s.beginWait else s.exhaust

/-- The transport answers the attempt in progress, `MemRead(addr_k, n_k)` (R25, R144). When no attempt is in progress there is
nothing to answer, and nothing happens. -/
def transportAnswers (a : Answer) (s : State) : Outcome :=
  match s.phase, s.waiting with
  | .attempting, false =>
    match s.job with
    | none => .fault .readerInconsistent
    | some j =>
      match j.kind.blocks[s.k]? with
      | none => .fault .readerInconsistent
      | some b =>
        let s' := s.record (.memRead j.caller b.addr b.count a)
        match a.wordsOf b.count with
        | some ws => .next (blockRead j ws s')
        | none => .next (attemptFailed s')
  | _, _ => .next s

/-- The response of a finished logical read: its buffer handed to the decoder (R148, R149), or the words as they are (R150).
None when the buffer has not the length of its read, which no run reaches. -/
def readResponse (kind : ReadKind) (asm : List Word) : Option Response :=
  match kind with
  | .status =>
    (asBuffer 44 asm).map fun buf =>
      match decodeStatus buf with
      | .ok snap => .ok (.snapshot snap)
      | .error e => .err e
  | .log => (asBuffer 512 asm).map fun buf => .ok (.logCollection (logCollection buf))
  | .block _ _ => some (.ok (.words asm))

/-- The reader's own action: the wait ends (R146); a read in Success gets its response from the decoder, a read in Exhausted
`TransportError(addr_k)` (R147), and the reader is Idle again (R141; entry 10). While an attempt is unanswered, and while Idle, it
has no step (R151, R201): nothing happens. -/
def readerActs (s : State) : Outcome :=
  match s.phase with
  | .idle => .next s
  | .attempting =>
    match s.waiting with
    | false => .next s
    | true =>
      match s.job with
      | none => .fault .readerInconsistent
      | some j => .next ((s.record (.waited j.caller)).endWait)
  | .success =>
    match s.job with
    | none => .fault .readerInconsistent
    | some j =>
      match readResponse j.kind s.asm with
      | none => .fault .readerInconsistent
      | some r => .next (s.endRead.answerTo j.caller r)
  | .exhausted =>
    match s.job with
    | none => .fault .readerInconsistent
    | some j =>
      match j.kind.blocks[s.k]? with
      | none => .fault .readerInconsistent
      | some b => .next (s.endRead.answerTo j.caller (.err (.transportError b.addr)))

/-! ## The procedures of R142 and R144

A logical read as a function of the answers its attempts get. `none`: the answers end before the read does (an attempt is
unanswered, R201). Otherwise the outcome, the number of waits, and the answers left over. -/

/-- `read_block_with_retry`, with `left` attempts left (R144). -/
def readBlockWithRetry (n : Nat) (left : Nat) (answers : List Answer) : Option (Option (List Word) × Nat × List Answer) :=
  match left, answers with
  | 0, as => some (none, 0, as)
  | _ + 1, [] => none
  | left' + 1, a :: as =>
    match a.wordsOf n with
    | some ws => some (some ws, 0, as)
    | none =>
      match readBlockWithRetry n left' as with
      | none => none
      | some (r, waits, rest) => some (r, (if left' = 0 then 0 else waits + 1), rest)

/-- `logical_read(c, B)` between `acquire` and `release` (R142): all the words, or the address of the block that failed. -/
def logicalRead (blocks : List Block) (answers : List Answer) : Option (Except Word (List Word) × Nat × List Answer) :=
  match blocks with
  | [] => some (.ok [], 0, answers)
  | b :: bs =>
    match readBlockWithRetry b.count Config.maxAttempts answers with
    | none => none
    | some (none, waits, rest) => some (.error b.addr, waits, rest)
    | some (some ws, waits, rest) =>
      match logicalRead bs rest with
      | none => none
      | some (.error addr, waits', rest') => some (.error addr, waits + waits', rest')
      | some (.ok more, waits', rest') => some (.ok (ws ++ more), waits + waits', rest')

end Sys2Proof.Machine
end

