-- ==== Sys2Proof/Machine/Dispatch.lean ====
section
/-! DEFINITION. One arm per operation, each one call of its meaning. -/

namespace Sys2Proof.Machine

def exec (i : Instr) (s : State) : Host.Outcome State Fault Refusal :=
  match i with
  | .scaleV a => Sys2Proof.Machine.execScaleV a s
  | .scaleI a => Sys2Proof.Machine.execScaleI a s
  | .scaleAH a => Sys2Proof.Machine.execScaleAH a s
  | .temp a => Sys2Proof.Machine.execTemp a s
  | .decState a => Sys2Proof.Machine.execDecState a s
  | .decFault a => Sys2Proof.Machine.execDecFault a s
  | .fsUnion a b => Sys2Proof.Machine.execFsUnion a b s
  | .fsInter a b => Sys2Proof.Machine.execFsInter a b s
  | .fsEq a b => Sys2Proof.Machine.execFsEq a b s
  | .decStatus buf => Sys2Proof.Machine.execDecStatus buf s
  | .decLogday slot => Sys2Proof.Machine.execDecLogday slot s
  | .buildLog buf => Sys2Proof.Machine.execBuildLog buf s
  | .rdStatus => Sys2Proof.Machine.execRdStatus s
  | .rdLogged => Sys2Proof.Machine.execRdLogged s
  | .rdBlock a b => Sys2Proof.Machine.execRdBlock a b s

end Sys2Proof.Machine
end

