-- ==== Sys2Proof/Machine/Moves.lean ====
section
/-! DEFINITION. What each move of an agent does, and how a word of the opcode table is placed as the next request. -/

namespace Sys2Proof.Machine

/-- A request is served as it comes (R45, R156). The reserved code is answered IllegalOp and does nothing else (R61, R169), before
anything is read (R172); a buffer of the wrong length makes it no request of this machine (R47, U18). -/
def serveRequest (c : Caller) (r : Request) (s : State) : Outcome :=
  match decode r with
  | .ok i => exec i { s with caller := c }
  | .error (.reservedOp op) => raise (.illegalOp op) { s with caller := c }
  | .error (.bufferLength _ _) => .refused .malformedRequest

/-- One move. -/
def makeMove (m : Move) (s : State) : Outcome :=
  match m with
  | .request c r => serveRequest c r s
  | .connect => .next s.connect
  | .acquire c => acquireLock c s
  | .answer a => transportAnswers a s
  | .reader => readerActs s

/-- The operations whose premise is an open connection (R191, R192). -/
def needsConnection (r : Request) : Bool := 0xC ≤ (opField r.cmd).toNat && (opField r.cmd).toNat ≤ 0xE

/-- `s` with the request as its next move, issued by the caller on record. A reader operation runs only after the boot step, so for
one the connection is open as well (R191; entry 15). -/
def State.withRequest (s : State) (r : Request) : State :=
  { s with agenda := .request s.caller r :: s.agenda, conn := if needsConnection r then .opened else s.conn }

end Sys2Proof.Machine
end

