-- ==== Sys2Proof/Machine/Step.lean ====
section
/-! DEFINITION. One step: the next move of the agenda (entry 1). -/

namespace Sys2Proof.Machine

/-- The agent whose turn it is moves. With nothing on the agenda nothing happens (entry 2). -/
def step (s : State) : Host.Outcome State Fault Refusal :=
  match s.agenda with
  | [] => .next s
  | m :: rest => makeMove m { s with agenda := rest }

/-- `s` with the request of a word of the opcode table as the next move (entry 15). -/
def State.withFetchWord (s : State) (nbits w : Nat) : State :=
  match tableRequest nbits w with
  | none => s
  | some r => s.withRequest r

end Sys2Proof.Machine
end

