-- ==== Sys2Proof/Safety.lean ====
section
/-! DEFINITION. What counts as a consistent state and a safe run, and the words claims are stated in. -/

namespace Sys2Proof.Machine

/-! ## The invariant of the reader (10_state.md R22; 46_block_reader.md R141-R147) -/

/-- How many words the first `n` blocks of a list bring. -/
def wordsOfBlocks (blocks : List Block) (n : Nat) : Nat := ((blocks.take n).map Block.count).sum

/-- The fields of the reader agree with its phase. -/
def ReaderConsistent (s : State) : Prop :=
  match s.phase with
  | .idle => s.lock = .free ∧ s.job = none ∧ s.k = 0 ∧ s.attempt = 1 ∧ s.asm = [] ∧ s.waiting = false
  | .attempting =>
    ∃ j, s.job = some j ∧ s.lock = .held j.caller ∧ s.k < j.kind.blocks.length ∧ 1 ≤ s.attempt ∧ s.attempt ≤ 3 ∧
      (s.waiting = true → s.attempt < 3) ∧ s.asm.length = wordsOfBlocks j.kind.blocks s.k
  | .success =>
    ∃ j, s.job = some j ∧ s.lock = .free ∧ s.k + 1 = j.kind.blocks.length ∧ 1 ≤ s.attempt ∧ s.attempt ≤ 3 ∧
      s.waiting = false ∧ s.asm.length = wordsOfBlocks j.kind.blocks j.kind.blocks.length
  | .exhausted =>
    ∃ j, s.job = some j ∧ s.lock = .free ∧ s.k < j.kind.blocks.length ∧ s.attempt = 3 ∧ s.waiting = false ∧ s.asm = []

/-- The invariant: the reader is consistent, and nobody reads or waits before the connection is open (R191). -/
structure Consistent (s : State) : Prop where
  reader : ReaderConsistent s
  boot : s.conn = .closed → s.phase = .idle ∧ s.waiters = []

/-! ## Runs -/

/-- Reset with a given agenda: the inputs of a run. -/
def State.resetWith (moves : List Move) : State := { State.reset with agenda := moves }

/-- `n` steps, stopping at the first fault or refusal. -/
def runFor (n : Nat) (s : State) : Outcome :=
  match n with
  | 0 => .next s
  | k + 1 =>
    match step s with
    | .next t => runFor k t
    | .fault r => .fault r
    | .refused r => .refused r

/-- No fault in `n` steps. -/
def SafeFor (n : Nat) (s : State) : Prop := ∀ r, runFor n s ≠ .fault r

/-! ## Words for statements -/

/-- The state after a request of the pure operations: the response, and nothing else (R82, R104, R121, R136). -/
def State.responding (s : State) (r : Response) : State := { s with responses := s.responses ++ [(s.caller, r)] }

/-- The operations with codes 0x0 to 0xB, which take no lock and touch no device (R156). -/
def isPure (i : Instr) : Bool :=
  match i with
  | .scaleV _ | .scaleI _ | .scaleAH _ | .temp _ | .decState _ | .decFault _ => true
  | .fsUnion _ _ | .fsInter _ _ | .fsEq _ _ => true
  | .decStatus _ | .decLogday _ | .buildLog _ => true
  | .rdStatus | .rdLogged | .rdBlock _ _ => false

/-- The logical read that a reader operation asks for (R148-R150). -/
def readKindOf (i : Instr) : Option ReadKind :=
  match i with
  | .rdStatus => some .status
  | .rdLogged => some .log
  | .rdBlock a b => some (.block a b)
  | _ => none

/-- The agenda in which the transport gives these answers and the reader moves after each. -/
def answersThenReader (answers : List Answer) : List Move := answers.flatMap fun a => [.answer a, .reader]

/-- How many attempts a history holds. -/
def memReadCount (h : List BusEvent) : Nat :=
  h.countP fun e => match e with | .memRead _ _ _ _ => true | .waited _ => false

/-- How many waits a history holds. -/
def waitCount (h : List BusEvent) : Nat :=
  h.countP fun e => match e with | .memRead _ _ _ _ => false | .waited _ => true

/-- Who an event of the history was for. -/
def BusEvent.caller (e : BusEvent) : Caller := match e with | .memRead c _ _ _ => c | .waited c => c

/-- Distance of two naturals. -/
def natDist (a b : Nat) : Nat := (a - b) + (b - a)

/-- `x` is the binary32 nearest to the positive real `num / den` (in units of 2^-149): no finite binary32 magnitude is nearer, and of
two equally near ones `x` has the even significand (R70). -/
def IsNearestEven (x : F32) (num den : Nat) : Prop :=
  isFinite x = true ∧
  ∀ y : F32, isFinite y = true →
    natDist (units x * den) num ≤ natDist (units y * den) num ∧
    (natDist (units x * den) num = natDist (units y * den) num → units y ≠ units x → x.getLsbD 0 = false)

end Sys2Proof.Machine
end

