-- ==== Sys2Proof/Certificates/Slice0/Obligations.lean ====
section
/-! DEFINITION. The statements for the provers. `t = s.responding r` says: the one response `r` goes to the caller of the request and
every other field of the state is as before. -/

open Sys2Proof Sys2Proof.Machine

/-! ## Requests: encoding, decoding, serving -/

/-- 30_encoding.md R45-R48, R51: no bit of an encoding is dropped. The format and the codes are the spec's own (D2, D3). -/
def Obligations.DecodeOfEncodeIsTheInstruction : Prop :=
  ∀ i : Instr, decode (encode i) = .ok i

/-- 30_encoding.md R46-R48, R51 (D2-D4): an instruction read from a request is written back as that request with the unused bits zero,
and what is written is always well formed and canonical. -/
def Obligations.EncodeOfDecodeClearsUnusedBits : Prop :=
  (∀ i : Instr, (encode i).wellFormed = true ∧ (encode i).canonical = true) ∧
  ∀ (r : Request) (i : Instr), decode r = .ok i →
    (encode i).buf = r.buf ∧ (encode i).cmd = r.cmd &&& usedMask (r.cmd.extractLsb' 32 4).toNat

/-- 30_encoding.md R47, R48, R61: exactly the well-formed requests with an operation code of the table decode; code 0xF is the
reserved one, whatever stands beside it (entry 7); any other request fails by the length of its buffer. -/
def Obligations.DecodingSortsEveryRequest : Prop :=
  ∀ r : Request,
    let op := r.cmd.extractLsb' 32 4
    (op = 0xF → decode r = .error (.reservedOp 0xF)) ∧
    (op ≠ 0xF → r.buf.length = operandLength op.toNat → ∃ i, decode r = .ok i) ∧
    (op ≠ 0xF → r.buf.length ≠ operandLength op.toNat → decode r = .error (.bufferLength op r.buf.length))

/-- 30_encoding.md R46, R48: words written out from the format `op[35:32] b[31:16] a[15:0]`. -/
def Obligations.WrittenOutWordsDecode : Prop :=
  decode ⟨0b0000_0000000000000000_0001000001111001, []⟩ = .ok (.scaleV 0x1079) ∧
  decode ⟨0b0011_0000000000000000_1111111110000000, []⟩ = .ok (.temp 0xFF80) ∧
  decode ⟨0b0101_0000000000000000_0000001000000000, []⟩ = .ok (.decFault 0x0200) ∧
  decode ⟨0b0110_0000000100000000_0000000000000011, []⟩ = .ok (.fsUnion 0x003 0x100) ∧
  decode ⟨0b1100_0000000000000000_0000000000000000, []⟩ = .ok .rdStatus ∧
  decode ⟨0b1110_0000000000010110_0000000000001000, []⟩ = .ok (.rdBlock 0x0008 22)

/-- A step whose next move is a request of `c` that decodes to `i` is `exec i`, with that move taken off the agenda and `c` on
record as the caller (30_encoding.md R45; entries 1, 4). -/
def Obligations.StepExecutesDecodedRequest : Prop :=
  ∀ (s : State) (c : Caller) (r : Request) (rest : List Move) (i : Instr),
    s.agenda = .request c r :: rest → decode r = .ok i →
    step s = exec i { s with agenda := rest, caller := c }

/-- A word of the opcode table placed by `withFetchWord` is run by the very next step (entry 15). -/
def Obligations.PlacedTableWordRunsNext : Prop :=
  ∀ (s : State) (nbits w : Nat) (i : Instr), decodeTableWord nbits w = some i →
    step (s.withFetchWord nbits w) = exec i { s with conn := if (readKindOf i).isSome then .opened else s.conn }

/-- 30_encoding.md R61, 60_exceptions.md R169 (D29): a request with `op = 0xF` is answered `(IllegalOp, 0x000F, no result)`; nothing else
changes, the lock and the history of reads among it. -/
def Obligations.ReservedOpAnswersIllegalOp : Prop :=
  ∀ (s : State) (c : Caller) (r : Request) (rest : List Move),
    s.agenda = .request c r :: rest → r.cmd.extractLsb' 32 4 = 0xF →
    ∃ resp : Response,
      step s = .next { s with agenda := rest, caller := c, responses := s.responses ++ [(c, resp)] } ∧
      resp.status = 4 ∧ resp.info = 0x000F ∧ resp.result = none

/-- 30_encoding.md R47 (U18): "a request with another length is not a request of this machine"; the step refuses it by name
(entry 6). -/
def Obligations.WrongBufferLengthIsRefused : Prop :=
  ∀ (s : State) (c : Caller) (r : Request) (rest : List Move),
    s.agenda = .request c r :: rest → r.wellFormed = false → step s = .refused .malformedRequest

/-- 30_encoding.md R51: the bits of `cmd` that the operation does not use do not change what a step does. -/
def Obligations.UnusedCommandBitsAreIgnored : Prop :=
  ∀ (s : State) (c : Caller) (r r' : Request) (rest : List Move),
    r.buf = r'.buf →
    r.cmd &&& usedMask (r.cmd.extractLsb' 32 4).toNat = r'.cmd &&& usedMask (r'.cmd.extractLsb' 32 4).toNat →
    step { s with agenda := .request c r :: rest } = step { s with agenda := .request c r' :: rest }

/-- 30_encoding.md R49, 60_exceptions.md R165, R169, R175: the status tells the kinds of response apart, a result is there exactly when
the status is 0, each of the four errors has its status and its payload, and an error is known by its status and info. The numbers are
the spec's decision D5, IllegalOp its D29. -/
def Obligations.ResponsesAreDistinguishable : Prop :=
  (∀ r : Response, r.status ≤ 4 ∧ (r.status = 0 ↔ r.result.isSome) ∧ (r.status = 0 → r.info = 0)) ∧
  (∀ raw, (Response.err (.unknownState raw)).status = 1 ∧ (Response.err (.unknownState raw)).info = raw) ∧
  (∀ raw, (Response.err (.unknownFaultBits raw)).status = 2 ∧ (Response.err (.unknownFaultBits raw)).info = raw) ∧
  (∀ addr, (Response.err (.transportError addr)).status = 3 ∧ (Response.err (.transportError addr)).info = addr) ∧
  (∀ op, (Response.err (.illegalOp op)).status = 4 ∧ (Response.err (.illegalOp op)).info = op.zeroExtend 16) ∧
  ∀ e e' : ErrorResponse, (Response.err e).status = (Response.err e').status → (Response.err e).info = (Response.err e').info →
    e = e'

/-! ## Binary32 arithmetic -/

/-- 40_scale_codec.md R70 (D6, G1): `to_f32` is exact, and every finite product and quotient is the exact real result rounded once to
nearest, ties to even. The bound is where rounding would pass the largest finite value. -/
def Obligations.ArithmeticRoundsOnceToNearestEven : Prop :=
  (∀ n : Nat, n < 2 ^ 24 → isFinite (toF32 n) = true ∧ (toF32 n).msb = false ∧ units (toF32 n) = n * 2 ^ 149) ∧
  (∀ a b : F32, isFinite a = true → isFinite b = true →
    units a * units b < 2 ^ 149 * ((2 ^ 25 - 1) * 2 ^ 252) →
    (fmul a b).msb = (a.msb ^^ b.msb) ∧ IsNearestEven (fmul a b) (units a * units b) (2 ^ 149)) ∧
  (∀ a b : F32, isFinite a = true → isFinite b = true → units b ≠ 0 →
    units a * 2 ^ 149 < units b * ((2 ^ 25 - 1) * 2 ^ 252) →
    (fdiv a b).msb = (a.msb ^^ b.msb) ∧ IsNearestEven (fdiv a b) (units a * 2 ^ 149) (units b))

/-! ## The scale unit -/

/-- 40_scale_codec.md R72: SCALE_V of every word: the formula, its exact value `raw * 25 / 8192`, the corner cases and the source's
example; nothing else changes. -/
def Obligations.ScaleVoltIsExact : Prop :=
  ∀ (a : Word) (s : State), ∃ x : F32,
    exec (.scaleV a) s = .next (s.responding (.ok (.f32 x))) ∧
    x = fdiv (fmul (toF32 a.toNat) 0x42C80000) 0x47000000 ∧
    isFinite x = true ∧ x.msb = false ∧ units x * 8192 = a.toNat * 25 * 2 ^ 149 ∧
    (a = 0 → x = 0x00000000) ∧ (a = 0x8000 → x = 0x42C80000) ∧ (a = 0xFFFF → x = 0x4347FF38) ∧
    (a = 0x1079 → x = 0x414DE880)

/-- 40_scale_codec.md R73, R76: SCALE_I of every word: the product rounded once, then divided exactly by 2^15; the corner cases, two
of the ties, the source's example; nothing else changes. -/
def Obligations.ScaleCurrRoundsTheProductOnce : Prop :=
  ∀ (a : Word) (s : State), ∃ p x : F32,
    exec (.scaleI a) s = .next (s.responding (.ok (.f32 x))) ∧
    p = fmul (toF32 a.toNat) 0x429E51EC ∧ x = fdiv p 0x47000000 ∧
    IsNearestEven p (a.toNat * 2593915 * 2 ^ 149) (2 ^ 15) ∧
    isFinite x = true ∧ x.msb = false ∧ units x * 2 ^ 15 = units p ∧
    (a = 0 → x = 0x00000000) ∧ (a = 1 → x = 0x3B1E51EC) ∧ (a = 0x8000 → x = 0x429E51EC) ∧ (a = 0xFFFF → x = 0x431E514E) ∧
    (a = 7 → p = 0x440A87AE ∧ x = 0x3C8A87AE) ∧ (a = 9 → p = 0x44321C2A ∧ x = 0x3CB21C2A) ∧ (a = 0x0035 → x = 0x3E031BD7)

/-- 40_scale_codec.md R74, R71: SCALE_AH of every word: one product with the binary32 nearest 0.1, rounded once, no division; the
corner cases, two words where a division by ten would differ, the source's examples; nothing else changes. -/
def Obligations.ScaleAmpHoursIsOneRoundedProduct : Prop :=
  ∀ (a : Word) (s : State), ∃ x : F32,
    exec (.scaleAH a) s = .next (s.responding (.ok (.f32 x))) ∧
    x = fmul (toF32 a.toNat) 0x3DCCCCCD ∧ x.msb = false ∧
    IsNearestEven x (a.toNat * 13421773 * 2 ^ 149) (2 ^ 27) ∧
    (a = 0 → x = 0x00000000) ∧ (a = 10 → x = 0x3F800000) ∧ (a = 0xFFFF → x = 0x45CCCC00) ∧
    (a = 9 → x = 0x3F666667) ∧ (a = 13 → x = 0x3FA66667) ∧ (a = 0x0047 → x = 0x40E33333) ∧ (a = 0x001B → x = 0x402CCCCD)

/-- 40_scale_codec.md R77: range and class of the three results over all words, and that each is strictly increasing. -/
def Obligations.ScaleResultsAreBoundedAndIncreasing : Prop :=
  ∀ f ∈ [(scaleVolt, (0x4347FF38 : F32)), (scaleCurr, 0x431E514E), (scaleAmpHours, 0x45CCCC00)],
    f.1 0 = 0 ∧ f.1 0xFFFF = f.2 ∧
    (∀ a : Word, (f.1 a).msb = false ∧ isFinite (f.1 a) = true ∧ (a ≠ 0 → 1 ≤ expField (f.1 a)) ∧ (f.1 a).toNat ≤ f.2.toNat) ∧
    ∀ a b : Word, a < b → units (f.1 a) < units (f.1 b)

/-- 40_scale_codec.md R78, second row: dividing first gives the same bits, for every word and both full-scale constants. -/
def Obligations.DividingFirstGivesTheSameBits : Prop :=
  ∀ a : Word, ∀ fs ∈ [Config.fsVolt, Config.fsCurr],
    fmul (fdiv (toF32 a.toNat) Config.scaleDiv) fs = fdiv (fmul (toF32 a.toNat) fs) Config.scaleDiv

/-- 40_scale_codec.md R75, 30_encoding.md R53: TEMP, with operation code 0x3 whatever `b` holds (R51, the spec's decision D4; entry
23): for every word the answer is `as_i8(raw[7:0])`, the high byte dropped; nothing else changes. -/
def Obligations.TempIsTheSignedLowByte : Prop :=
  ∀ a b : Word, decode ⟨packCmd 0x3 b a, []⟩ = .ok (.temp a) ∧ ∀ s : State, ∃ t : Temperature,
    exec (.temp a) s = .next (s.responding (.ok (.temperature t))) ∧
    t.toInt = if a.toNat % 256 < 128 then (a.toNat % 256 : Int) else (a.toNat % 256 : Int) - 256

/-- 30_encoding.md R50 (D26): a temperature on a wider path keeps its value. -/
def Obligations.WidenedTemperatureKeepsItsValue : Prop :=
  ∀ (n : Nat) (t : Temperature), 8 ≤ n → (sextTemperature n t).toInt = t.toInt

/-! ## The closed-set decoders -/

/-- 41_state_decoder.md R85, 30_encoding.md R54: DEC_STATE, with operation code 0x4 whatever `b` holds (R51, the spec's decision D4;
entry 23): 0 to 8 give the state of that number, every other word UnknownState with the whole word and no result; nothing else
changes. -/
def Obligations.DecStateAcceptsZeroToEight : Prop :=
  ∀ a b : Word, decode ⟨packCmd 0x4 b a, []⟩ = .ok (.decState a) ∧ ∀ s : State,
    (a.toNat ≤ 8 → ∃ st : OperatingState,
      exec (.decState a) s = .next (s.responding (.ok (.operatingState st))) ∧ st.number.toNat = a.toNat) ∧
    (8 < a.toNat → ∃ resp : Response,
      exec (.decState a) s = .next (s.responding resp) ∧ resp = .err (.unknownState a) ∧
      resp.status = 1 ∧ resp.info = a ∧ resp.result = none)

/-- 42_fault_extractor.md R90, 30_encoding.md R55: DEC_FAULT, with operation code 0x5 whatever `b` holds (R51, the spec's decision
D4; entry 23): a word with bits 15:9 zero gives the nine flags of its bits 8:0, any other UnknownFaultBits with the whole word and
no result; nothing else changes. -/
def Obligations.DecFaultAcceptsNineBits : Prop :=
  ∀ a b : Word, decode ⟨packCmd 0x5 b a, []⟩ = .ok (.decFault a) ∧ ∀ s : State,
    (a &&& 0xFE00 = 0 → ∃ f : FaultSet,
      exec (.decFault a) s = .next (s.responding (.ok (.faultSet f))) ∧ ∀ n : Fin 9, faultFlag f n = a.getLsbD n) ∧
    (a &&& 0xFE00 ≠ 0 → ∃ resp : Response,
      exec (.decFault a) s = .next (s.responding resp) ∧ resp = .err (.unknownFaultBits a) ∧
      resp.status = 2 ∧ resp.info = a ∧ resp.result = none)

/-- 42_fault_extractor.md R92-R94: the three set operations flag by flag, their operation codes 0x6 to 0x8, and that the operands are
bits 8:0 of the two words, bits 15:9 ignored; nothing else changes. -/
def Obligations.FaultSetOperationsAreFlagwise : Prop :=
  (∀ (a b : FaultSet) (s : State), ∃ f : FaultSet,
    exec (.fsUnion a b) s = .next (s.responding (.ok (.faultSet f))) ∧
    ∀ n : Fin 9, faultFlag f n = (faultFlag a n || faultFlag b n)) ∧
  (∀ (a b : FaultSet) (s : State), ∃ f : FaultSet,
    exec (.fsInter a b) s = .next (s.responding (.ok (.faultSet f))) ∧
    ∀ n : Fin 9, faultFlag f n = (faultFlag a n && faultFlag b n)) ∧
  (∀ (a b : FaultSet) (s : State), ∃ v : Bool,
    exec (.fsEq a b) s = .next (s.responding (.ok (.boolean v))) ∧
    (v = true ↔ ∀ n : Fin 9, faultFlag a n = faultFlag b n)) ∧
  ∀ a b : Word, ∃ fa fb : FaultSet,
    (∀ n : Fin 9, faultFlag fa n = a.getLsbD n) ∧ (∀ n : Fin 9, faultFlag fb n = b.getLsbD n) ∧
    decode ⟨packCmd 0x6 b a, []⟩ = .ok (.fsUnion fa fb) ∧
    decode ⟨packCmd 0x7 b a, []⟩ = .ok (.fsInter fa fb) ∧
    decode ⟨packCmd 0x8 b a, []⟩ = .ok (.fsEq fa fb)

/-! ## The status sequencer -/

/-- 43_status_decoder.md R100, R102: a buffer whose state word and fault word are legal gives the snapshot, each field from its
offset by its unit; nothing else changes. -/
def Obligations.DecStatusReadsElevenFields : Prop :=
  ∀ (buf : Buffer 44) (s : State),
    let w := fun k : Nat => buf.words.getD k 0
    (w 9).toNat ≤ 8 → w 10 &&& 0xFE00 = 0 → ∃ x : StatusSnapshot,
      exec (.decStatus buf) s = .next (s.responding (.ok (.snapshot x))) ∧
      x.batteryVoltage = scaleVolt (w 0) ∧ x.solarVoltage = scaleVolt (w 1) ∧ x.loadVoltage = scaleVolt (w 2) ∧
      x.batteryCurrent = scaleCurr (w 3) ∧ x.loadCurrent = scaleCurr (w 4) ∧
      x.heatsinkTemp = (w 5).setWidth 8 ∧ x.batteryTemp = (w 6).setWidth 8 ∧
      x.ambientTemp = (w 7).setWidth 8 ∧ x.remoteTemp = (w 8).setWidth 8 ∧
      x.state.number.toNat = (w 9).toNat ∧ ∀ n : Fin 9, faultFlag x.faults n = (w 10).getLsbD n

/-- 43_status_decoder.md R101, R102, 60_exceptions.md R172: the state word is decoded before the fault word (the spec's decision D11),
and either failure is the whole operation's, without a result; nothing else changes. -/
def Obligations.DecStatusReportsStateErrorFirst : Prop :=
  ∀ (buf : Buffer 44) (s : State),
    let w := fun k : Nat => buf.words.getD k 0
    (8 < (w 9).toNat → exec (.decStatus buf) s = .next (s.responding (.err (.unknownState (w 9))))) ∧
    ((w 9).toNat ≤ 8 → w 10 &&& 0xFE00 ≠ 0 →
      exec (.decStatus buf) s = .next (s.responding (.err (.unknownFaultBits (w 10)))))

/-- 43_status_decoder.md R102: when the state word or the fault word is illegal, the whole operation fails: an error, and no result at
all; nothing else changes. -/
def Obligations.DecStatusIsAllOrNothing : Prop :=
  ∀ (buf : Buffer 44) (s : State),
    8 < (buf.words.getD 9 0).toNat ∨ buf.words.getD 10 0 &&& 0xFE00 ≠ 0 → ∃ resp : Response,
      exec (.decStatus buf) s = .next (s.responding resp) ∧ resp.status ≠ 0 ∧ resp.result = none

/-- 43_status_decoder.md R103: two buffers that agree on offsets 0 to 10 give the same response. -/
def Obligations.DecStatusIgnoresOffsetsFromEleven : Prop :=
  ∀ (b b' : Buffer 44) (s : State), (∀ k : Nat, k ≤ 10 → b.words[k]? = b'.words[k]?) →
    exec (.decStatus b) s = exec (.decStatus b') s

/-! ## The log record unit -/

/-- 44_log_unpacker.md R111: the hourmeter is the joined words 0 and 1 with the least significant byte cleared and the bytes reversed,
that is `hi(w1) * 65536 + lo(w0) * 256 + hi(w0)`. -/
def Obligations.HourmeterReassemblesThreeBytes : Prop :=
  ∀ w0 w1 : Word,
    (hourmeterField w0 w1).setWidth 32 = bswap32 ((w0 ++ w1) &&& 0xFFFFFF00) ∧
    (hourmeterField w0 w1).toNat = w1.toNat / 256 * 65536 + w0.toNat % 256 * 256 + w0.toNat / 256

/-- 44_log_unpacker.md R110, R111, R113, R115, R116 (and R117): a slot whose hourmeter is neither sentinel gives a record; the hourmeter
is the byte reassembly of words 0 and 1, the alarm that of words 1 and 2 to the letter (the spec's decision D10; entry 18), the five
other fields are scaled from words 3, 4, 5, 6 and 9; nothing else changes. -/
def Obligations.DecLogdayReassemblesUsedSlots : Prop :=
  ∀ (slot : Buffer 16) (s : State),
    let w := fun k : Nat => slot.words.getD k 0
    let hours := (w 1).toNat / 256 * 65536 + (w 0).toNat % 256 * 256 + (w 0).toNat / 256
    hours ≠ 0 → hours ≠ 0xFFFFFF → ∃ r : LogDayRecord,
      exec (.decLogday slot) s = .next (s.responding (.ok (.logDay (some r)))) ∧
      r.hourmeter.toNat = hours ∧
      r.alarmDaily.toNat = (w 2).toNat % 256 * 16777216 + (w 2).toNat / 256 * 65536 + (w 1).toNat % 256 * 256 ∧
      r.batteryVoltageMin = scaleVolt (w 3) ∧ r.batteryVoltageMax = scaleVolt (w 4) ∧
      r.batteryChargeDaily = scaleAmpHours (w 5) ∧ r.loadChargeDaily = scaleAmpHours (w 6) ∧
      r.arrayVoltageMax = scaleVolt (w 9)

/-- 44_log_unpacker.md R114, 30_encoding.md R59 (D12): a sentinel slot, whatever else it holds, gives OK and no record. -/
def Obligations.DecLogdaySentinelGivesNoRecord : Prop :=
  ∀ (slot : Buffer 16) (s : State),
    let w := fun k : Nat => slot.words.getD k 0
    (w 0 = 0x0000 ∧ (w 1).toNat / 256 = 0x00) ∨ (w 0 = 0xFFFF ∧ (w 1).toNat / 256 = 0xFF) →
    exec (.decLogday slot) s = .next (s.responding (.ok (.logDay none)))

/-- 44_log_unpacker.md R113 to the letter (the spec's decision D10, C2; entry 18), and the 24 significant bits that both readings of
the source share (U5); R20: a record's hourmeter is never a sentinel and its alarm's low byte is 0. -/
def Obligations.RecordsHoldTheLiteralAlarm : Prop :=
  ∀ (slot : Buffer 16) (r : LogDayRecord), decodeLogDay slot = some r →
    let w := fun k : Nat => slot.words.getD k 0
    r.alarmDaily.toNat = (w 2).toNat % 256 * 16777216 + (w 2).toNat / 256 * 65536 + (w 1).toNat % 256 * 256 ∧
    (alarmSignificant r.alarmDaily).toNat = (w 1).toNat % 256 + 256 * ((w 2).toNat / 256) + 65536 * ((w 2).toNat % 256) ∧
    r.hourmeter ≠ 0x000000 ∧ r.hourmeter ≠ 0xFFFFFF

/-- 44_log_unpacker.md R115: "Words 7, 8 and 10 to 15 are not read." -/
def Obligations.DecLogdayIgnoresUnreadWords : Prop :=
  ∀ (b b' : Buffer 16) (s : State),
    (∀ k : Nat, k ≤ 6 ∨ k = 9 → b.words[k]? = b'.words[k]?) → exec (.decLogday b) s = exec (.decLogday b') s

/-- 00_scope.md R8, 30_encoding.md R64: `bswap32` reverses the four bytes and is its own inverse; joining two words is addition. -/
def Obligations.ByteReversalIsAnInvolution : Prop :=
  (∀ v : BitVec 32, bswap32 (bswap32 v) = v) ∧
  (∀ v : BitVec 32, (bswap32 v).toNat =
    v.toNat % 256 * 16777216 + v.toNat / 256 % 256 * 65536 + v.toNat / 65536 % 256 * 256 + v.toNat / 16777216) ∧
  ∀ h l : Word, (joinWords h l).toNat = h.toNat * 65536 + l.toNat

/-! ## The log sequencer -/

/-- 45_log_collection.md R130, R132 (R131's stability is the spec's decision D13): BUILD_LOG of every buffer: the records of the slots
in address order without the sentinels, put in ascending hourmeter order, equal hourmeters in slot order; nothing else changes. -/
def Obligations.BuildLogSortsKeptRecordsStably : Prop :=
  ∀ (buf : Buffer 512) (s : State), ∃ rs kept : List LogDayRecord,
    exec (.buildLog buf) s = .next (s.responding (.ok (.logCollection rs))) ∧
    kept = (List.finRange 32).filterMap (fun i => decodeLogDay (logSlot buf i)) ∧
    (∀ (i : Fin 32) (j : Fin 16), (logSlot buf i).words[(j : Nat)]? = buf.words[16 * (i : Nat) + (j : Nat)]?) ∧
    rs.Perm kept ∧
    rs.Pairwise (fun p q => p.hourmeter.toNat ≤ q.hourmeter.toNat) ∧
    ∀ h : Hourmeter, rs.filter (fun r => r.hourmeter == h) = kept.filter (fun r => r.hourmeter == h)

/-- 45_log_collection.md R132, R133: the length is the number of slots whose hourmeter is no sentinel, at most 32; a buffer of unused
slots gives OK and the empty collection. -/
def Obligations.BuildLogDropsExactlyTheSentinels : Prop :=
  ∀ (buf : Buffer 512) (s : State), ∃ rs : List LogDayRecord,
    exec (.buildLog buf) s = .next (s.responding (.ok (.logCollection rs))) ∧
    rs.length = (List.finRange 32).countP (fun i =>
      !isSentinel (hourmeterField (bufferWord (logSlot buf i) 0) (bufferWord (logSlot buf i) 1))) ∧
    rs.length ≤ 32 ∧
    (buf.words = List.replicate 512 0x0000 ∨ buf.words = List.replicate 512 0xFFFF → rs = [])

/-! ## The pure operations together -/

/-- 10_state.md R10: the units and sequencers are functions of their operands alone: for each request of theirs there is one
response, given in every state, and nothing else changes. -/
def Obligations.PureOperationsDependOnOperandsAlone : Prop :=
  ∀ i : Instr, isPure i = true → ∃ resp : Response, ∀ s : State, exec i s = .next (s.responding resp)

/-- 70_reset_and_hazards.md R202, 10_state.md R10: two pure requests of any callers give each caller the same response in either
order, and leave the same state but for the order in which the responses were given and the caller on record. -/
def Obligations.PureOperationsCommute : Prop :=
  ∀ i j : Instr, isPure i = true → isPure j = true → ∃ ri rj : Response, ∀ (s : State) (ci cj : Caller),
    (∃ t u, exec i { s with caller := ci } = .next t ∧ exec j { t with caller := cj } = .next u ∧
      u = { s with caller := cj, responses := s.responses ++ [(ci, ri), (cj, rj)] }) ∧
    (∃ t u, exec j { s with caller := cj } = .next t ∧ exec i { t with caller := ci } = .next u ∧
      u = { s with caller := ci, responses := s.responses ++ [(cj, rj), (ci, ri)] })

/-! ## The block reader -/

/-- 46_block_reader.md R145: the block lists, in the order they are issued, and the words they bring. -/
def Obligations.BlockListsAreTheFixedOnes : Prop :=
  ReadKind.status.blocks = [⟨0x0008, 22⟩, ⟨0x001E, 22⟩] ∧
  ReadKind.log.blocks.length = 32 ∧
  (∀ i : Nat, i < 32 → ∃ b : Block, ReadKind.log.blocks[i]? = some b ∧ b.addr.toNat = 0x8000 + 16 * i ∧ b.count = 16) ∧
  (∀ a b : Word, (ReadKind.block a b).blocks = [⟨a, b.toNat⟩]) ∧
  wordsOfBlocks ReadKind.status.blocks 2 = 44 ∧ wordsOfBlocks ReadKind.log.blocks 32 = 512

/-- 46_block_reader.md R142, R143, 20_memory.md R37 (D23): with the connection open, the lock free and the reader Idle, each of the
three reader operations starts at once: the lock is taken for the caller, `k`, `attempt` and `asm` are written, and nothing else
changes: no response yet. That it takes the lock also while other callers wait is the model's choice (entry 8), and so is that the
reader must be Idle (entry 9). -/
def Obligations.ReaderOperationTakesTheFreeLock : Prop :=
  ∀ (i : Instr) (kind : ReadKind) (s : State),
    readKindOf i = some kind → s.conn = .opened → s.lock = .free → s.phase = .idle →
    exec i s = .next { s with lock := .held s.caller, phase := .attempting, job := some ⟨s.caller, kind⟩, k := 0, attempt := 1,
                              asm := [], waiting := false }

/-- 20_memory.md R37: "A caller whose `acquire` is not enabled waits": the three reader operations while the lock is held, or while a
finished read has yet to be answered (entry 9). -/
def Obligations.ReaderOperationWaitsForTheLock : Prop :=
  ∀ (i : Instr) (kind : ReadKind) (s : State),
    readKindOf i = some kind → s.conn = .opened → s.lock ≠ .free ∨ s.phase ≠ .idle →
    exec i s = .next { s with waiters := s.waiters ++ [⟨s.caller, kind⟩] }

/-- 70_reset_and_hazards.md R191 (D30, U13): before the connection is open the three reader operations are given no meaning: the model
refuses them by name (entry 5). -/
def Obligations.ReaderOperationNeedsTheConnection : Prop :=
  ∀ (i : Instr) (kind : ReadKind) (s : State),
    readKindOf i = some kind → s.conn = .closed → exec i s = .refused .connectionClosed

/-- 46_block_reader.md R141, R144, R147: what the answer to an attempt does, in each of the four cases of the transition table; every
other field is as before. The model's choices in it: `k` stays at the last block on its success (entry 11), where R142 counts on; the
third failure gives no response yet (entry 10), where R141's row lists the answer; the wait is a step of its own, and `attempt` counts
up at its end (entry 12). -/
def Obligations.AnswersDriveTheStateMachine : Prop :=
  ∀ (s : State) (a : Answer) (rest : List Move) (j : Job) (b : Block),
    s.agenda = .answer a :: rest → s.phase = .attempting → s.waiting = false → s.job = some j →
    j.kind.blocks[s.k]? = some b →
    let u : State := { s with agenda := rest, history := s.history ++ [.memRead j.caller b.addr b.count a] }
    (∀ ws, a = .ok ws → ws.length = b.count → s.k + 1 < j.kind.blocks.length →
      step s = .next { u with asm := s.asm ++ ws, k := s.k + 1, attempt := 1 }) ∧
    (∀ ws, a = .ok ws → ws.length = b.count → j.kind.blocks.length ≤ s.k + 1 →
      step s = .next { u with asm := s.asm ++ ws, phase := .success, lock := .free }) ∧
    ((∀ ws, a = .ok ws → ws.length ≠ b.count) → s.attempt < 3 → step s = .next { u with waiting := true }) ∧
    ((∀ ws, a = .ok ws → ws.length ≠ b.count) → 3 ≤ s.attempt →
      step s = .next { u with asm := [], phase := .exhausted, lock := .free })

/-- 46_block_reader.md R141, R146-R150 (entries 10, 11, 12): the reader's own actions: the end of a wait, the response of a
successful read, the TransportError of an exhausted one with the base address of its block; every other field is as before. -/
def Obligations.ReaderActionsEndWaitsAndReads : Prop :=
  ∀ (s : State) (rest : List Move) (j : Job), s.agenda = .reader :: rest → s.job = some j →
    (s.phase = .attempting → s.waiting = true →
      step s = .next { s with agenda := rest, waiting := false, attempt := s.attempt + 1,
                              history := s.history ++ [.waited j.caller] }) ∧
    (∀ resp, s.phase = .success → readResponse j.kind s.asm = some resp →
      step s = .next { s with agenda := rest, phase := .idle, job := none, k := 0, attempt := 1, asm := [], waiting := false,
                              responses := s.responses ++ [(j.caller, resp)] }) ∧
    (∀ b, s.phase = .exhausted → j.kind.blocks[s.k]? = some b →
      step s = .next { s with agenda := rest, phase := .idle, job := none, k := 0, attempt := 1, asm := [], waiting := false,
                              responses := s.responses ++ [(j.caller, .err (.transportError b.addr))] })

/-- 46_block_reader.md R148-R150: what a successful read is answered with: exactly what DEC_STATUS or BUILD_LOG answers for its words,
or the words themselves. -/
def Obligations.SuccessfulReadsAnswerAsTheDecoders : Prop :=
  (∀ (buf : Buffer 44) (s : State), ∃ resp : Response,
    readResponse .status buf.words = some resp ∧ exec (.decStatus buf) s = .next (s.responding resp)) ∧
  (∀ (buf : Buffer 512) (s : State), ∃ resp : Response,
    readResponse .log buf.words = some resp ∧ exec (.buildLog buf) s = .next (s.responding resp)) ∧
  ∀ (a b : Word) (ws : List Word), readResponse (.block a b) ws = some (.ok (.words ws))

/-- 46_block_reader.md R144 (a wrong length counts as a failure, D16): up to three attempts, a wait only between two of them, the first
success kept; no answer, no outcome. -/
def Obligations.BlockReadTriesThreeTimes : Prop :=
  ∀ (n : Nat) (bad bad' bad'' : Answer) (ws : List Word) (rest : List Answer),
    (∀ x ∈ [bad, bad', bad''], ∀ vs, x = .ok vs → vs.length ≠ n) → ws.length = n →
    readBlockWithRetry n 3 (.ok ws :: rest) = some (some ws, 0, rest) ∧
    readBlockWithRetry n 3 (bad :: .ok ws :: rest) = some (some ws, 1, rest) ∧
    readBlockWithRetry n 3 (bad :: bad' :: .ok ws :: rest) = some (some ws, 2, rest) ∧
    readBlockWithRetry n 3 (bad :: bad' :: bad'' :: rest) = some (none, 2, rest) ∧
    readBlockWithRetry n 3 [] = none ∧ readBlockWithRetry n 3 [bad] = none ∧ readBlockWithRetry n 3 [bad, bad'] = none

/-- 46_block_reader.md R147, R155: how many attempts and waits a logical read of any block list takes: on success between one and
three attempts a block; a failure at block `k` after `k + 3` to `3k + 3`, reporting the address of that block. -/
def Obligations.LogicalReadAttemptsAreBounded : Prop :=
  ∀ (blocks : List Block) (answers : List Answer) (out : Except Word (List Word)) (waits : Nat) (rest : List Answer),
    logicalRead blocks answers = some (out, waits, rest) →
    ∃ used : List Answer, answers = used ++ rest ∧
      match out with
      | .ok ws => blocks.length ≤ used.length ∧ used.length ≤ 3 * blocks.length ∧ waits + blocks.length = used.length ∧
          ws.length = wordsOfBlocks blocks blocks.length
      | .error addr => ∃ (k : Nat) (b : Block), blocks[k]? = some b ∧ b.addr = addr ∧ k + 3 ≤ used.length ∧
          used.length ≤ 3 * k + 3 ∧ waits + k + 1 = used.length

/-- 70_reset_and_hazards.md R201: when every attempt is answered, a logical read ends. -/
def Obligations.AnsweredLogicalReadsEnd : Prop :=
  ∀ (blocks : List Block) (answers : List Answer), 3 * blocks.length ≤ answers.length →
    (logicalRead blocks answers).isSome = true

/-- 46_block_reader.md R142, R144, R147-R150, R155: the state machine does what the procedure `logical_read` says. From a state in which
a reader operation can start, with answers that just suffice, the operation and the reader's moves end with one response to its
caller (the decoder's, or TransportError of the failed block), the lock free, the reader at its idle values, and one attempt per
answer in the history; everything else is as before. The model's choices in it: the form of the moves and of the history (entries 1,
10 to 12, 14), the idle values (entry 3), and that the operation takes the lock at once also while others wait (entry 8). -/
def Obligations.ReaderRefinesLogicalRead : Prop :=
  ∀ (i : Instr) (kind : ReadKind) (s : State) (answers : List Answer) (out : Except Word (List Word)) (waits : Nat),
    readKindOf i = some kind → s.conn = .opened → s.lock = .free → s.phase = .idle →
    s.agenda = answersThenReader answers → logicalRead kind.blocks answers = some (out, waits, []) →
    ∃ (t₀ : State) (resp : Response) (h : List BusEvent),
      exec i s = .next t₀ ∧
      runFor (2 * answers.length) t₀ =
        .next { s with lock := .free, phase := .idle, job := none, k := 0, attempt := 1, asm := [], waiting := false, agenda := [],
                       responses := s.responses ++ [(s.caller, resp)], history := s.history ++ h } ∧
      (match out with
       | .ok ws => readResponse kind ws = some resp
       | .error addr => resp = .err (.transportError addr)) ∧
      memReadCount h = answers.length ∧ waitCount h = waits ∧ ∀ e ∈ h, e.caller = s.caller

/-- 10_state.md R14, 46_block_reader.md R148: when both blocks are answered at once with the contents of the device's registers,
RD_STATUS is answered with the decoding of registers 0x0008 to 0x0033: offset `k` is register `0x0008 + k`. The model's choices in
it: the form of the moves (entries 1, 10) and that the operation takes the lock at once also while others wait (entry 8). -/
def Obligations.StatusReadDecodesTheDeviceRegisters : Prop :=
  ∀ (s : State) (reg : Nat → Word),
    s.conn = .opened → s.lock = .free → s.phase = .idle →
    s.agenda = answersThenReader
      [.ok ((List.range 22).map fun j => reg (0x0008 + j)), .ok ((List.range 22).map fun j => reg (0x001E + j))] →
    ∃ (t₀ t : State) (resp : Response),
      exec .rdStatus s = .next t₀ ∧ runFor 4 t₀ = .next t ∧
      readResponse .status ((List.range 44).map fun k => reg (0x0008 + k)) = some resp ∧
      t.responses = s.responses ++ [(s.caller, resp)] ∧ t.lock = .free ∧ t.phase = .idle ∧ t.waiters = s.waiters

/-- 10_state.md R16, 46_block_reader.md R149: the same for RD_LOGGED and registers 0x8000 to 0x81FF: buffer index `16 i + j` is
register `0x8000 + 16 i + j`. The model's choices in it: as the statement before (entries 1, 8, 10). -/
def Obligations.LogReadDecodesTheDeviceRegisters : Prop :=
  ∀ (s : State) (reg : Nat → Word),
    s.conn = .opened → s.lock = .free → s.phase = .idle →
    s.agenda = answersThenReader
      ((List.range 32).map fun i => .ok ((List.range 16).map fun j => reg (0x8000 + 16 * i + j))) →
    ∃ (t₀ t : State) (resp : Response),
      exec .rdLogged s = .next t₀ ∧ runFor 64 t₀ = .next t ∧
      readResponse .log ((List.range 512).map fun k => reg (0x8000 + k)) = some resp ∧
      t.responses = s.responses ++ [(s.caller, resp)] ∧ t.lock = .free ∧ t.phase = .idle ∧ t.waiters = s.waiters

/-! ## The lock, the connection and the moves -/

/-- 20_memory.md R37 (D19; entry 9): any waiting caller may take the free lock of an Idle reader; while the lock is held nobody
can. -/
def Obligations.AnyWaiterMayAcquireTheFreeLock : Prop :=
  ∀ (s : State) (c : Caller) (rest : List Move), s.agenda = .acquire c :: rest →
    (s.lock = .free → s.phase = .idle → (∃ j ∈ s.waiters, j.caller = c) →
      ∃ (j : Job) (before after : List Job), j.caller = c ∧ s.waiters = before ++ j :: after ∧
        step s = .next { s with agenda := rest, waiters := before ++ after, lock := .held c, phase := .attempting, job := some j,
                                k := 0, attempt := 1, asm := [], waiting := false }) ∧
    (s.lock ≠ .free → step s = .next { s with agenda := rest })

/-- 70_reset_and_hazards.md R191: the boot step opens the connection and does nothing else; no step closes it again. -/
def Obligations.ConnectOpensForTheLifetime : Prop :=
  (∀ (s : State) (rest : List Move), s.agenda = .connect :: rest → step s = .next { s with agenda := rest, conn := .opened }) ∧
  ∀ s t : State, step s = .next t → s.conn = .opened → t.conn = .opened

/-- 46_block_reader.md R151, R152, 70_reset_and_hazards.md R201: while an attempt is unanswered only an answer moves the reader on, and
while it waits only the end of the wait does: any other step leaves the lock and the logical read as they are. -/
def Obligations.ReaderStandsStillUntilAnswered : Prop :=
  ∀ (s t : State) (m : Move) (rest : List Move), s.agenda = m :: rest → s.phase = .attempting →
    (s.waiting = false → ∀ a, m ≠ .answer a) → (s.waiting = true → m ≠ .reader) → step s = .next t →
    t.lock = s.lock ∧ t.phase = s.phase ∧ t.job = s.job ∧ t.k = s.k ∧ t.attempt = s.attempt ∧ t.asm = s.asm ∧
      t.waiting = s.waiting ∧ t.history = s.history

/-- 20_memory.md R37, R38, 46_block_reader.md R151: once a logical read holds the lock, a step leaves the lock with its caller or ends
the read; and what a step adds to the history is one event of the caller that holds the lock. -/
def Obligations.LockIsHeldForTheWholeRead : Prop :=
  ∀ s t : State, Consistent s → step s = .next t →
    (∀ c, s.lock = .held c → t.lock = .held c ∨ t.lock = .free ∧ (t.phase = .success ∨ t.phase = .exhausted)) ∧
    (t.history = s.history ∨ ∃ e : BusEvent, t.history = s.history ++ [e] ∧ s.lock = .held e.caller)

/-- 60_exceptions.md R173, R174, 46_block_reader.md R147: when a TransportError is given the lock is free, the reader is Idle at its
idle values, and it had discarded its words. -/
def Obligations.TransportErrorLeavesTheReaderIdle : Prop :=
  ∀ (s t : State) (c : Caller) (addr : Word), Consistent s → step s = .next t →
    t.responses = s.responses ++ [(c, .err (.transportError addr))] →
    s.phase = .exhausted ∧ s.asm = [] ∧ t.lock = .free ∧ t.phase = .idle ∧ t.job = none ∧ t.k = 0 ∧ t.attempt = 1 ∧ t.asm = [] ∧
      t.waiting = false

/-- 60_exceptions.md R173, R181: a step gives at most one response and withdraws none. -/
def Obligations.ResponsesAreNeverWithdrawn : Prop :=
  ∀ s t : State, step s = .next t → t.responses = s.responses ∨ ∃ p, t.responses = s.responses ++ [p]

/-! ## Reset and the invariant -/

/-- 10_state.md R24, 70_reset_and_hazards.md R190 (the spec's decision D23); `k`, `attempt` and the model's own fields have the values
of entries 1, 3, 4, 14. -/
def Obligations.ResetClosesFreesAndEmpties : Prop :=
  State.reset.conn = .closed ∧ State.reset.lock = .free ∧ State.reset.phase = .idle ∧ State.reset.asm = [] ∧
  State.reset.waiters = [] ∧ State.reset.responses = [] ∧ State.reset.agenda = [] ∧ State.reset.history = []

/-- The invariant holds at reset (10_state.md R24). -/
def Obligations.ResetIsConsistent : Prop := Consistent State.reset

/-- Every step keeps the invariant (10_state.md R22, 46_block_reader.md R141-R147): the lock is held exactly by the caller of the
logical read in progress, `k` and `attempt` stay in their ranges, and `asm` holds exactly the words of the blocks read. -/
def Obligations.EveryStepKeepsTheReaderConsistent : Prop :=
  ∀ s t : State, Consistent s → step s = .next t → Consistent t

/-- No step from a consistent state faults: the model's one fault is for states that no run reaches (entry 21). -/
def Obligations.ConsistentStatesNeverFault : Prop :=
  ∀ (s : State) (r : Fault), Consistent s → step s ≠ .fault r

/-- No run from reset faults, whatever its inputs: requests, answers, lock order. -/
def Obligations.NoRunFromResetFaults : Prop :=
  ∀ (moves : List Move) (n : Nat), SafeFor n (State.resetWith moves)

/-- 20_memory.md R29, 46_block_reader.md R145: the address map covers the 65536 registers without gap or overlap, and the fixed reads
cover exactly its three mapped regions. -/
def Obligations.AddressMapIsCoveredByTheFixedReads : Prop :=
  (∀ n : Nat, n < Config.addressMap.length → ∃ r : Config.Region, Config.addressMap[n]? = some r ∧
    r.base = ((Config.addressMap.take n).map Config.Region.size).sum) ∧
  (Config.addressMap.map Config.Region.size).sum = 65536 ∧
  (∀ a : Nat, (∃ b ∈ ReadKind.status.blocks, b.addr.toNat ≤ a ∧ a < b.addr.toNat + b.count) ↔
    ∃ r ∈ Config.addressMap, (r.kind = .statusBlockA ∨ r.kind = .statusBlockB) ∧ r.base ≤ a ∧ a < r.base + r.size) ∧
  ∀ a : Nat, (∃ b ∈ ReadKind.log.blocks, b.addr.toNat ≤ a ∧ a < b.addr.toNat + b.count) ↔
    ∃ r ∈ Config.addressMap, r.kind = .logRegion ∧ r.base ≤ a ∧ a < r.base + r.size
end

