-- ==== Sys2Proof/Laws/Decode.lean ====
section
/-! SUPPORT. The fields of a packed command word, and when the two shared decoding operations succeed. -/

namespace Sys2Proof

@[simp] theorem opField_packCmd (op : BitVec 4) (b a : Word) : opField (packCmd op b a) = op := by
  ext i hi
  simp only [opField, packCmd, BitVec.getElem_extractLsb', BitVec.getLsbD_append]
  have : ¬ (32 + i < 16) := by omega
  have : ¬ (32 + i - 16 < 16) := by omega
  simp [*, show 32 + i - 16 - 16 = i by omega]

@[simp] theorem bField_packCmd (op : BitVec 4) (b a : Word) : bField (packCmd op b a) = b := by
  ext i hi
  simp only [bField, packCmd, BitVec.getElem_extractLsb', BitVec.getLsbD_append]
  have : ¬ (16 + i < 16) := by omega
  simp [*, show 16 + i - 16 = i by omega]

@[simp] theorem aField_packCmd (op : BitVec 4) (b a : Word) : aField (packCmd op b a) = a := by
  ext i hi
  simp only [aField, packCmd, BitVec.getElem_extractLsb', Nat.zero_add]
  exact (BitVec.getLsbD_append).trans (by simp [hi])

@[simp] theorem faultSetField_faultSetWord (f : FaultSet) : faultSetField (faultSetWord f) = f := by
  ext i hi
  simp only [faultSetField, faultSetWord, BitVec.getElem_extractLsb', BitVec.getLsbD_setWidth]
  simp [show i < 16 by omega, BitVec.getLsbD_eq_getElem hi]

theorem faultSetField_getLsbD (w : Word) (n : Fin 9) : (faultSetField w).getLsbD n = w.getLsbD n := by
  simp [faultSetField]

theorem withoutBuffer_ok {r : Request} {i : Instr} (h : r.buf = []) : withoutBuffer r i = .ok i := by
  simp [withoutBuffer, h]

theorem withoutBuffer_eq_ok_iff {r : Request} {i j : Instr} : withoutBuffer r i = .ok j ↔ r.buf = [] ∧ i = j := by
  unfold withoutBuffer
  split <;> simp_all [List.length_eq_zero_iff]

theorem withBuffer_ok {n : Nat} (buf : Buffer n) (cmd : BitVec 36) (i : Buffer n → Instr) :
    withBuffer n ⟨cmd, buf.words⟩ i = .ok (i buf) := by
  simp [withBuffer, buf.length_words]

theorem withBuffer_eq_ok_iff {n : Nat} {r : Request} {i : Buffer n → Instr} {j : Instr} :
    withBuffer n r i = .ok j ↔ ∃ buf : Buffer n, buf.words = r.buf ∧ i buf = j := by
  unfold withBuffer
  split
  · rename_i h
    constructor
    · intro e
      exact ⟨⟨r.buf, h⟩, rfl, by simpa using e⟩
    · rintro ⟨⟨ws, hws⟩, rfl, rfl⟩
      rfl
  · rename_i h
    constructor
    · intro e
      cases e
    · rintro ⟨⟨ws, hws⟩, rfl, rfl⟩
      exact absurd hws h

/-! ## Canonical words (R51) -/

theorem packCmd_and (op op' : BitVec 4) (b b' a a' : Word) :
    packCmd op b a &&& packCmd op' b' a' = packCmd (op &&& op') (b &&& b') (a &&& a') := by
  apply BitVec.eq_of_getLsbD_eq
  intro i hi
  simp only [packCmd, BitVec.getLsbD_and, BitVec.getLsbD_append]
  by_cases h : i < 16 <;> by_cases h' : i - 16 < 16 <;> simp only [h, h', if_true, if_false]

/-- A request with the buffer length of its operation code is well formed. -/
theorem wellFormed_packCmd {op : BitVec 4} {b a : Word} {buf : List Word} (h : buf.length = operandLength op.toNat) :
    (⟨packCmd op b a, buf⟩ : Request).wellFormed = true := by
  have e : (packCmd op b a).extractLsb' 32 4 = op := opField_packCmd op b a
  simp [Request.wellFormed, e, h]

/-- A request whose two operand words lie in the masks of its operation code is canonical. -/
theorem canonical_packCmd {op : BitVec 4} {b a mb ma : Word} {buf : List Word} (hm : usedMask op.toNat = packCmd 0xF mb ma)
    (hb : b &&& mb = b) (ha : a &&& ma = a) : (⟨packCmd op b a, buf⟩ : Request).canonical = true := by
  have e : (packCmd op b a).extractLsb' 32 4 = op := opField_packCmd op b a
  have ho : op &&& 0xF = op := BitVec.and_allOnes
  rw [Request.canonical, e, hm, packCmd_and, hb, ha, ho, beq_self_eq_true]

theorem faultSetWord_and_mask (f : FaultSet) : faultSetWord f &&& 0x01FF = faultSetWord f := by
  apply BitVec.eq_of_getLsbD_eq
  intro i hi
  simp only [faultSetWord, BitVec.getLsbD_and, BitVec.getLsbD_setWidth]
  by_cases h : i < 9
  · interval_cases i <;> simp
  · simp [BitVec.getLsbD_of_ge f i (by omega)]

end Sys2Proof
end

