-- ==== Sys2Proof/Laws/Float.lean ====
section
/-! SUPPORT. Binary32: the fields of a packed magnitude, the two halves of a rounding (which place, which integer), and the value that
comes out (40_scale_codec.md R70). -/

namespace Sys2Proof.Machine

/-! ## Packing -/

@[simp] theorem packF32_msb (negative : Bool) (m : Nat) : (packF32 negative m).msb = negative := by
  cases negative <;> simp only [packF32, BitVec.ofBool_false, BitVec.ofBool_true] <;> rw [BitVec.msb_append] <;> rfl

theorem packF32_toNat (negative : Bool) (m : Nat) (h : m ≤ 0x7F800000) :
    (packF32 negative m).toNat = 2 ^ 31 * negative.toNat + m := by
  rw [packF32, Nat.min_eq_left h, BitVec.toNat_append, BitVec.toNat_ofNat, BitVec.toNat_ofBool, Nat.mod_eq_of_lt (by omega),
    Nat.shiftLeft_eq, Nat.mul_comm, ← Nat.two_pow_add_eq_or_of_lt (by omega)]

theorem expField_packF32 (negative : Bool) (m : Nat) (h : m ≤ 0x7F800000) : expField (packF32 negative m) = m / 2 ^ 23 := by
  rw [expField, BitVec.extractLsb'_toNat, packF32_toNat _ _ h, Nat.shiftRight_eq_div_pow]
  cases negative <;> simp only [Bool.toNat_false, Bool.toNat_true, Nat.reducePow] <;> omega

theorem fracField_packF32 (negative : Bool) (m : Nat) (h : m ≤ 0x7F800000) : fracField (packF32 negative m) = m % 2 ^ 23 := by
  rw [fracField, BitVec.extractLsb'_toNat, packF32_toNat _ _ h, Nat.shiftRight_eq_div_pow]
  cases negative <;> simp only [Bool.toNat_false, Bool.toNat_true, Nat.reducePow] <;> omega

theorem isFinite_packF32 (negative : Bool) (m : Nat) (h : m < 0x7F800000) : isFinite (packF32 negative m) = true := by
  rw [isFinite, expField_packF32 _ _ (by omega), bne_iff_ne]
  omega

theorem packF32_getLsbD_zero (negative : Bool) (m : Nat) (h : m ≤ 0x7F800000) :
    (packF32 negative m).getLsbD 0 = decide (m % 2 = 1) := by
  rw [BitVec.getLsbD, packF32_toNat _ _ h, Nat.testBit_zero]
  congr 1
  simp only [eq_iff_iff]
  omega

/-- A significand `q` that stands `t` places above the lowest one has `q * 2 ^ t` units; `2 ^ 24` carries into the exponent. -/
theorem units_packF32 (negative : Bool) (q t : Nat) (hq : q ≤ 2 ^ 24) (ht : 0 < t → 2 ^ 23 ≤ q) (h : q + t * 2 ^ 23 < 0x7F800000) :
    units (packF32 negative (q + t * 2 ^ 23)) = q * 2 ^ t := by
  have he := expField_packF32 negative _ h.le
  have hf := fracField_packF32 negative _ h.le
  rw [units, significand, scaleExp, he, hf]
  by_cases h23 : q < 2 ^ 23
  · obtain rfl : t = 0 := by omega
    rw [Nat.zero_mul, Nat.add_zero, if_pos (by omega), Nat.mod_eq_of_lt h23, Nat.max_eq_right (by omega)]
  · by_cases h24 : q = 2 ^ 24
    · subst h24
      have e1 : (2 ^ 24 + t * 2 ^ 23) / 2 ^ 23 = t + 2 := by omega
      have e2 : (2 ^ 24 + t * 2 ^ 23) % 2 ^ 23 = 0 := by omega
      rw [e1, e2, if_neg (by omega), Nat.max_eq_left (by omega)]
      show (2 ^ 23 + 0) * 2 ^ (t + 1) = _
      rw [Nat.pow_succ]
      ring
    · have e1 : (q + t * 2 ^ 23) / 2 ^ 23 = t + 1 := by omega
      have e2 : 2 ^ 23 + (q + t * 2 ^ 23) % 2 ^ 23 = q := by omega
      rw [e1, e2, if_neg (by omega), Nat.max_eq_left (by omega), Nat.add_sub_cancel]

/-! ## Rounding -/

theorem nearestEven_mul (q den : Nat) (h : 0 < den) : nearestEven (q * den) den = q := by
  simp [nearestEven, Nat.mul_div_cancel _ h, h]

/-- The rounded integer is at most half a unit away, and even when it is exactly half a unit away. -/
theorem nearestEven_spec (num den : Nat) (h : 0 < den) :
    2 * natDist (nearestEven num den * den) num ≤ den ∧
    (2 * natDist (nearestEven num den * den) num = den → nearestEven num den % 2 = 0) := by
  have hdiv : den * (num / den) + num % den = num := Nat.div_add_mod num den
  have hlt : num % den < den := Nat.mod_lt _ h
  unfold nearestEven natDist
  generalize num / den = q at *
  generalize num % den = r at *
  have e1 : (q + 1) * den = den * q + den := by ring
  have e0 : q * den = den * q := Nat.mul_comm _ _
  simp only
  split
  · rw [e0]; generalize den * q = z at *; omega
  · split
    · rw [e1]; generalize den * q = z at *; omega
    · obtain h2 | h2 := Nat.mod_two_eq_zero_or_one q <;> rw [h2]
      · rw [Nat.add_zero, e0]; generalize den * q = z at *; omega
      · rw [e1]; generalize den * q = z at *; omega

theorem nearestEven_le (num den n : Nat) (h : 0 < den) (hn : num ≤ n * den) : nearestEven num den ≤ n := by
  have hdiv : den * (num / den) + num % den = num := Nat.div_add_mod num den
  have hq : num / den ≤ n := Nat.div_le_of_le_mul (by rwa [Nat.mul_comm])
  unfold nearestEven
  simp only
  by_cases he : num / den = n
  · have : num % den = 0 := by
      rw [he, Nat.mul_comm] at hdiv
      omega
    rw [if_pos (by omega)]
    exact hq
  · split
    · exact hq
    · split <;> omega

theorem le_nearestEven (num den n : Nat) (h : 0 < den) (hn : n * den ≤ num) : n ≤ nearestEven num den := by
  have : n ≤ num / den := (Nat.le_div_iff_mul_le h).2 hn
  unfold nearestEven
  simp only
  split
  · exact this
  · split <;> omega

/-- The place of the significand: 24 bits from place `placesAbove` up hold the magnitude, and no fewer unless that place is the
lowest. -/
theorem placesAbove_spec (num den : Nat) (h : 0 < den) :
    num < 2 ^ 24 * (den * 2 ^ placesAbove num den) ∧
    (0 < placesAbove num den → 2 ^ 23 * (den * 2 ^ placesAbove num den) ≤ num) := by
  have hlt : num / den < 2 ^ (placesAbove num den + 24) :=
    Nat.lt_of_lt_of_le Nat.lt_log2_self (Nat.pow_le_pow_right (by decide) (by unfold placesAbove; omega))
  constructor
  · have := (Nat.div_lt_iff_lt_mul h).1 hlt
    rw [Nat.pow_add] at this
    calc num < 2 ^ placesAbove num den * 2 ^ 24 * den := this
      _ = _ := by ring
  · intro hp
    have hne : num / den ≠ 0 := by
      intro h0
      simp [placesAbove, h0] at hp
    have hle : 2 ^ (23 + placesAbove num den) ≤ num / den :=
      Nat.le_trans (Nat.pow_le_pow_right (by decide) (by unfold placesAbove at *; omega)) (Nat.log2_self_le hne)
    have := (Nat.le_div_iff_mul_le h).1 hle
    rw [Nat.pow_add] at this
    calc _ = 2 ^ 23 * 2 ^ placesAbove num den * den := by ring
      _ ≤ num := this

/-- The finite values near a place `t`: a multiple of `2 ^ t` units, or below the binade that starts there. -/
theorem units_grid (y : F32) (t : Nat) : units y < 2 ^ 23 * 2 ^ t ∨ ∃ m, units y = m * 2 ^ t := by
  have hs : significand y < 2 ^ 24 := by
    have : fracField y < 2 ^ 23 := BitVec.isLt _
    unfold significand
    split <;> omega
  unfold units
  by_cases h : t ≤ scaleExp y - 1
  · obtain ⟨d, hd⟩ := Nat.exists_eq_add_of_le h
    refine .inr ⟨significand y * 2 ^ d, ?_⟩
    rw [hd, Nat.pow_add]
    ring
  · obtain ⟨d, hd⟩ := Nat.exists_eq_add_of_lt (Nat.lt_of_not_le h)
    refine .inl ?_
    rw [hd, Nat.pow_add, Nat.pow_add]
    have hd1 : 1 ≤ 2 ^ d := Nat.one_le_two_pow
    calc _ < 2 ^ 24 * 2 ^ (scaleExp y - 1) := Nat.mul_lt_mul_of_pos_right hs (by positivity)
      _ ≤ _ := by
        have := Nat.le_mul_of_pos_right (2 ^ (scaleExp y - 1)) (Nat.lt_of_lt_of_le Nat.zero_lt_one hd1)
        omega

theorem below_largest (num D B : Nat) (e : B * 2 = (2 ^ 25 - 1) * D) (hb : num < B) : D < 2 * natDist (2 ^ 24 * D) num := by
  unfold natDist
  have h2 : (2 ^ 25 - 1) * D + D = 2 * (2 ^ 24 * D) := by
    simp only [Nat.reducePow, Nat.reduceSub]
    ring
  generalize (2 ^ 25 - 1) * D = X at *
  generalize 2 ^ 24 * D = Y at *
  omega

/-- What the shared rounding gives: the finite value nearest to `num / den` units, the even one of two equally near. `B` is the
bound below which nothing rounds past the largest finite value. -/
theorem roundedMagnitude_isNearestEven (negative : Bool) (num den B : Nat) (h : 0 < den)
    (hB : B = den * ((2 ^ 25 - 1) * 2 ^ 252)) (hb : num < B) :
    IsNearestEven (packF32 negative (roundedMagnitude num den)) num den := by
  obtain ⟨p1, p2⟩ := placesAbove_spec num den h
  have hm : roundedMagnitude num den =
      nearestEven num (den * 2 ^ placesAbove num den) + placesAbove num den * 2 ^ 23 := rfl
  generalize placesAbove num den = t at p1 p2 hm
  obtain ⟨D, hD⟩ : ∃ D, D = den * 2 ^ t := ⟨_, rfl⟩
  rw [← hD] at p1 p2 hm
  have hDp : 0 < D := by
    rw [hD]
    positivity
  obtain ⟨q, hq⟩ : ∃ q, q = nearestEven num D := ⟨_, rfl⟩
  rw [← hq] at hm
  have hq24 : q ≤ 2 ^ 24 := hq ▸ nearestEven_le _ _ _ hDp p1.le
  have hq23 : 0 < t → 2 ^ 23 ≤ q := fun h0 => hq ▸ le_nearestEven _ _ _ hDp (p2 h0)
  obtain ⟨n1, n2⟩ := nearestEven_spec num D hDp
  rw [← hq] at n1 n2
  have ht253 : t ≤ 253 := by
    by_contra hc
    have h2 : 2 ^ 254 ≤ 2 ^ t := Nat.pow_le_pow_right (by decide) (by omega)
    have h3 : (2 ^ 25 - 1) * 2 ^ 252 ≤ 2 ^ 23 * 2 ^ 254 := by norm_num
    have : num < 2 ^ 23 * D := by
      calc num < B := hb
        _ ≤ den * (2 ^ 23 * 2 ^ 254) := by
          rw [hB]
          exact Nat.mul_le_mul_left _ h3
        _ = 2 ^ 23 * (den * 2 ^ 254) := by ring
        _ ≤ _ := by
          rw [hD]
          exact Nat.mul_le_mul_left _ (Nat.mul_le_mul_left _ h2)
    have := p2 (by omega)
    omega
  have hlt : q + t * 2 ^ 23 < 0x7F800000 := by
    by_contra hc
    have ht' : t = 253 := by omega
    have hq' : q = 2 ^ 24 := by omega
    rw [hq'] at n1
    have := below_largest num D B (by rw [hB, hD, ht']; ring) hb
    omega
  rw [hm]
  refine ⟨isFinite_packF32 _ _ hlt, fun y _ => ?_⟩
  rw [units_packF32 negative q t hq24 hq23 hlt, show q * 2 ^ t * den = q * D by rw [hD]; ring]
  have heven : (packF32 negative (q + t * 2 ^ 23)).getLsbD 0 = false ↔ q % 2 = 0 := by
    rw [packF32_getLsbD_zero _ _ hlt.le, decide_eq_false_iff_not]
    omega
  rw [heven]
  have hg : (0 < t ∧ units y < 2 ^ 23 * 2 ^ t) ∨ ∃ m, units y = m * 2 ^ t := by
    by_cases h0 : t = 0
    · exact .inr ⟨units y, by simp [h0]⟩
    · exact (units_grid y t).imp (fun hy => ⟨by omega, hy⟩) id
  clear hm hb hB
  rcases hg with ⟨ht0, hy⟩ | ⟨m, hy⟩
  · have h1 : units y * den < 2 ^ 23 * D := by
      calc _ < 2 ^ 23 * 2 ^ t * den := Nat.mul_lt_mul_of_pos_right hy h
        _ = _ := by rw [hD]; ring
    have h2 := p2 ht0
    have h3 : natDist (q * D) num < natDist (units y * den) num := by
      have hq0 : 2 ^ 23 ≤ q := hq23 ht0
      unfold natDist at *
      by_cases hqq : q = 2 ^ 23
      · rw [hqq]
        omega
      · have : (2 ^ 23 + 1) * D ≤ q * D := Nat.mul_le_mul_right _ (by omega)
        rw [Nat.add_mul] at this
        omega
    exact ⟨h3.le, fun h => by omega⟩
  · rw [hy, show m * 2 ^ t * den = m * D by rw [hD]; ring]
    unfold natDist at *
    rcases Nat.lt_trichotomy m q with hc | rfl | hc
    · have : (m + 1) * D ≤ q * D := Nat.mul_le_mul_right _ (by omega)
      rw [Nat.add_mul] at this
      exact ⟨by omega, fun h _ => n2 (by omega)⟩
    · exact ⟨Nat.le_refl _, fun _ h => absurd rfl h⟩
    · have : (q + 1) * D ≤ m * D := Nat.mul_le_mul_right _ (by omega)
      rw [Nat.add_mul] at this
      exact ⟨by omega, fun h _ => n2 (by omega)⟩

end Sys2Proof.Machine
end

