-- ==== Sys2Proof/Laws/State.lean ====
section
/-! SUPPORT. What each update of the state does to each field, so that no proof unfolds a record update. -/

namespace Sys2Proof.Machine

variable (s : State)

/-! ### `answerTo` -/

@[simp] theorem State.answerTo_conn (c : Caller) (r : Response) : (s.answerTo c r).conn = s.conn := rfl
@[simp] theorem State.answerTo_lock (c : Caller) (r : Response) : (s.answerTo c r).lock = s.lock := rfl
@[simp] theorem State.answerTo_phase (c : Caller) (r : Response) : (s.answerTo c r).phase = s.phase := rfl
@[simp] theorem State.answerTo_job (c : Caller) (r : Response) : (s.answerTo c r).job = s.job := rfl
@[simp] theorem State.answerTo_k (c : Caller) (r : Response) : (s.answerTo c r).k = s.k := rfl
@[simp] theorem State.answerTo_attempt (c : Caller) (r : Response) : (s.answerTo c r).attempt = s.attempt := rfl
@[simp] theorem State.answerTo_asm (c : Caller) (r : Response) : (s.answerTo c r).asm = s.asm := rfl
@[simp] theorem State.answerTo_waiting (c : Caller) (r : Response) : (s.answerTo c r).waiting = s.waiting := rfl
@[simp] theorem State.answerTo_waiters (c : Caller) (r : Response) : (s.answerTo c r).waiters = s.waiters := rfl
@[simp] theorem State.answerTo_agenda (c : Caller) (r : Response) : (s.answerTo c r).agenda = s.agenda := rfl
@[simp] theorem State.answerTo_caller (c : Caller) (r : Response) : (s.answerTo c r).caller = s.caller := rfl
@[simp] theorem State.answerTo_responses (c : Caller) (r : Response) : (s.answerTo c r).responses = s.responses ++ [(c, r)] := rfl
@[simp] theorem State.answerTo_history (c : Caller) (r : Response) : (s.answerTo c r).history = s.history := rfl

/-! ### `connect` -/

@[simp] theorem State.connect_conn : s.connect.conn = .opened := rfl
@[simp] theorem State.connect_lock : s.connect.lock = s.lock := rfl
@[simp] theorem State.connect_phase : s.connect.phase = s.phase := rfl
@[simp] theorem State.connect_job : s.connect.job = s.job := rfl
@[simp] theorem State.connect_k : s.connect.k = s.k := rfl
@[simp] theorem State.connect_attempt : s.connect.attempt = s.attempt := rfl
@[simp] theorem State.connect_asm : s.connect.asm = s.asm := rfl
@[simp] theorem State.connect_waiting : s.connect.waiting = s.waiting := rfl
@[simp] theorem State.connect_waiters : s.connect.waiters = s.waiters := rfl
@[simp] theorem State.connect_agenda : s.connect.agenda = s.agenda := rfl
@[simp] theorem State.connect_caller : s.connect.caller = s.caller := rfl
@[simp] theorem State.connect_responses : s.connect.responses = s.responses := rfl
@[simp] theorem State.connect_history : s.connect.history = s.history := rfl

/-! ### `beginRead` -/

@[simp] theorem State.beginRead_conn (j : Job) : (s.beginRead j).conn = s.conn := rfl
@[simp] theorem State.beginRead_lock (j : Job) : (s.beginRead j).lock = .held j.caller := rfl
@[simp] theorem State.beginRead_phase (j : Job) : (s.beginRead j).phase = .attempting := rfl
@[simp] theorem State.beginRead_job (j : Job) : (s.beginRead j).job = some j := rfl
@[simp] theorem State.beginRead_k (j : Job) : (s.beginRead j).k = 0 := rfl
@[simp] theorem State.beginRead_attempt (j : Job) : (s.beginRead j).attempt = 1 := rfl
@[simp] theorem State.beginRead_asm (j : Job) : (s.beginRead j).asm = [] := rfl
@[simp] theorem State.beginRead_waiting (j : Job) : (s.beginRead j).waiting = false := rfl
@[simp] theorem State.beginRead_waiters (j : Job) : (s.beginRead j).waiters = s.waiters := rfl
@[simp] theorem State.beginRead_agenda (j : Job) : (s.beginRead j).agenda = s.agenda := rfl
@[simp] theorem State.beginRead_caller (j : Job) : (s.beginRead j).caller = s.caller := rfl
@[simp] theorem State.beginRead_responses (j : Job) : (s.beginRead j).responses = s.responses := rfl
@[simp] theorem State.beginRead_history (j : Job) : (s.beginRead j).history = s.history := rfl

/-! ### `enqueue` -/

@[simp] theorem State.enqueue_conn (j : Job) : (s.enqueue j).conn = s.conn := rfl
@[simp] theorem State.enqueue_lock (j : Job) : (s.enqueue j).lock = s.lock := rfl
@[simp] theorem State.enqueue_phase (j : Job) : (s.enqueue j).phase = s.phase := rfl
@[simp] theorem State.enqueue_job (j : Job) : (s.enqueue j).job = s.job := rfl
@[simp] theorem State.enqueue_k (j : Job) : (s.enqueue j).k = s.k := rfl
@[simp] theorem State.enqueue_attempt (j : Job) : (s.enqueue j).attempt = s.attempt := rfl
@[simp] theorem State.enqueue_asm (j : Job) : (s.enqueue j).asm = s.asm := rfl
@[simp] theorem State.enqueue_waiting (j : Job) : (s.enqueue j).waiting = s.waiting := rfl
@[simp] theorem State.enqueue_waiters (j : Job) : (s.enqueue j).waiters = s.waiters ++ [j] := rfl
@[simp] theorem State.enqueue_agenda (j : Job) : (s.enqueue j).agenda = s.agenda := rfl
@[simp] theorem State.enqueue_caller (j : Job) : (s.enqueue j).caller = s.caller := rfl
@[simp] theorem State.enqueue_responses (j : Job) : (s.enqueue j).responses = s.responses := rfl
@[simp] theorem State.enqueue_history (j : Job) : (s.enqueue j).history = s.history := rfl

/-! ### `record` -/

@[simp] theorem State.record_conn (e : BusEvent) : (s.record e).conn = s.conn := rfl
@[simp] theorem State.record_lock (e : BusEvent) : (s.record e).lock = s.lock := rfl
@[simp] theorem State.record_phase (e : BusEvent) : (s.record e).phase = s.phase := rfl
@[simp] theorem State.record_job (e : BusEvent) : (s.record e).job = s.job := rfl
@[simp] theorem State.record_k (e : BusEvent) : (s.record e).k = s.k := rfl
@[simp] theorem State.record_attempt (e : BusEvent) : (s.record e).attempt = s.attempt := rfl
@[simp] theorem State.record_asm (e : BusEvent) : (s.record e).asm = s.asm := rfl
@[simp] theorem State.record_waiting (e : BusEvent) : (s.record e).waiting = s.waiting := rfl
@[simp] theorem State.record_waiters (e : BusEvent) : (s.record e).waiters = s.waiters := rfl
@[simp] theorem State.record_agenda (e : BusEvent) : (s.record e).agenda = s.agenda := rfl
@[simp] theorem State.record_caller (e : BusEvent) : (s.record e).caller = s.caller := rfl
@[simp] theorem State.record_responses (e : BusEvent) : (s.record e).responses = s.responses := rfl
@[simp] theorem State.record_history (e : BusEvent) : (s.record e).history = s.history ++ [e] := rfl

/-! ### `nextBlock` -/

@[simp] theorem State.nextBlock_conn (ws : List Word) : (s.nextBlock ws).conn = s.conn := rfl
@[simp] theorem State.nextBlock_lock (ws : List Word) : (s.nextBlock ws).lock = s.lock := rfl
@[simp] theorem State.nextBlock_phase (ws : List Word) : (s.nextBlock ws).phase = s.phase := rfl
@[simp] theorem State.nextBlock_job (ws : List Word) : (s.nextBlock ws).job = s.job := rfl
@[simp] theorem State.nextBlock_k (ws : List Word) : (s.nextBlock ws).k = s.k + 1 := rfl
@[simp] theorem State.nextBlock_attempt (ws : List Word) : (s.nextBlock ws).attempt = 1 := rfl
@[simp] theorem State.nextBlock_asm (ws : List Word) : (s.nextBlock ws).asm = s.asm ++ ws := rfl
@[simp] theorem State.nextBlock_waiting (ws : List Word) : (s.nextBlock ws).waiting = s.waiting := rfl
@[simp] theorem State.nextBlock_waiters (ws : List Word) : (s.nextBlock ws).waiters = s.waiters := rfl
@[simp] theorem State.nextBlock_agenda (ws : List Word) : (s.nextBlock ws).agenda = s.agenda := rfl
@[simp] theorem State.nextBlock_caller (ws : List Word) : (s.nextBlock ws).caller = s.caller := rfl
@[simp] theorem State.nextBlock_responses (ws : List Word) : (s.nextBlock ws).responses = s.responses := rfl
@[simp] theorem State.nextBlock_history (ws : List Word) : (s.nextBlock ws).history = s.history := rfl

/-! ### `succeed` -/

@[simp] theorem State.succeed_conn (ws : List Word) : (s.succeed ws).conn = s.conn := rfl
@[simp] theorem State.succeed_lock (ws : List Word) : (s.succeed ws).lock = .free := rfl
@[simp] theorem State.succeed_phase (ws : List Word) : (s.succeed ws).phase = .success := rfl
@[simp] theorem State.succeed_job (ws : List Word) : (s.succeed ws).job = s.job := rfl
@[simp] theorem State.succeed_k (ws : List Word) : (s.succeed ws).k = s.k := rfl
@[simp] theorem State.succeed_attempt (ws : List Word) : (s.succeed ws).attempt = s.attempt := rfl
@[simp] theorem State.succeed_asm (ws : List Word) : (s.succeed ws).asm = s.asm ++ ws := rfl
@[simp] theorem State.succeed_waiting (ws : List Word) : (s.succeed ws).waiting = s.waiting := rfl
@[simp] theorem State.succeed_waiters (ws : List Word) : (s.succeed ws).waiters = s.waiters := rfl
@[simp] theorem State.succeed_agenda (ws : List Word) : (s.succeed ws).agenda = s.agenda := rfl
@[simp] theorem State.succeed_caller (ws : List Word) : (s.succeed ws).caller = s.caller := rfl
@[simp] theorem State.succeed_responses (ws : List Word) : (s.succeed ws).responses = s.responses := rfl
@[simp] theorem State.succeed_history (ws : List Word) : (s.succeed ws).history = s.history := rfl

/-! ### `beginWait` -/

@[simp] theorem State.beginWait_conn : s.beginWait.conn = s.conn := rfl
@[simp] theorem State.beginWait_lock : s.beginWait.lock = s.lock := rfl
@[simp] theorem State.beginWait_phase : s.beginWait.phase = s.phase := rfl
@[simp] theorem State.beginWait_job : s.beginWait.job = s.job := rfl
@[simp] theorem State.beginWait_k : s.beginWait.k = s.k := rfl
@[simp] theorem State.beginWait_attempt : s.beginWait.attempt = s.attempt := rfl
@[simp] theorem State.beginWait_asm : s.beginWait.asm = s.asm := rfl
@[simp] theorem State.beginWait_waiting : s.beginWait.waiting = true := rfl
@[simp] theorem State.beginWait_waiters : s.beginWait.waiters = s.waiters := rfl
@[simp] theorem State.beginWait_agenda : s.beginWait.agenda = s.agenda := rfl
@[simp] theorem State.beginWait_caller : s.beginWait.caller = s.caller := rfl
@[simp] theorem State.beginWait_responses : s.beginWait.responses = s.responses := rfl
@[simp] theorem State.beginWait_history : s.beginWait.history = s.history := rfl

/-! ### `endWait` -/

@[simp] theorem State.endWait_conn : s.endWait.conn = s.conn := rfl
@[simp] theorem State.endWait_lock : s.endWait.lock = s.lock := rfl
@[simp] theorem State.endWait_phase : s.endWait.phase = s.phase := rfl
@[simp] theorem State.endWait_job : s.endWait.job = s.job := rfl
@[simp] theorem State.endWait_k : s.endWait.k = s.k := rfl
@[simp] theorem State.endWait_attempt : s.endWait.attempt = s.attempt + 1 := rfl
@[simp] theorem State.endWait_asm : s.endWait.asm = s.asm := rfl
@[simp] theorem State.endWait_waiting : s.endWait.waiting = false := rfl
@[simp] theorem State.endWait_waiters : s.endWait.waiters = s.waiters := rfl
@[simp] theorem State.endWait_agenda : s.endWait.agenda = s.agenda := rfl
@[simp] theorem State.endWait_caller : s.endWait.caller = s.caller := rfl
@[simp] theorem State.endWait_responses : s.endWait.responses = s.responses := rfl
@[simp] theorem State.endWait_history : s.endWait.history = s.history := rfl

/-! ### `exhaust` -/

@[simp] theorem State.exhaust_conn : s.exhaust.conn = s.conn := rfl
@[simp] theorem State.exhaust_lock : s.exhaust.lock = .free := rfl
@[simp] theorem State.exhaust_phase : s.exhaust.phase = .exhausted := rfl
@[simp] theorem State.exhaust_job : s.exhaust.job = s.job := rfl
@[simp] theorem State.exhaust_k : s.exhaust.k = s.k := rfl
@[simp] theorem State.exhaust_attempt : s.exhaust.attempt = s.attempt := rfl
@[simp] theorem State.exhaust_asm : s.exhaust.asm = [] := rfl
@[simp] theorem State.exhaust_waiting : s.exhaust.waiting = s.waiting := rfl
@[simp] theorem State.exhaust_waiters : s.exhaust.waiters = s.waiters := rfl
@[simp] theorem State.exhaust_agenda : s.exhaust.agenda = s.agenda := rfl
@[simp] theorem State.exhaust_caller : s.exhaust.caller = s.caller := rfl
@[simp] theorem State.exhaust_responses : s.exhaust.responses = s.responses := rfl
@[simp] theorem State.exhaust_history : s.exhaust.history = s.history := rfl

/-! ### `endRead` -/

@[simp] theorem State.endRead_conn : s.endRead.conn = s.conn := rfl
@[simp] theorem State.endRead_lock : s.endRead.lock = s.lock := rfl
@[simp] theorem State.endRead_phase : s.endRead.phase = .idle := rfl
@[simp] theorem State.endRead_job : s.endRead.job = none := rfl
@[simp] theorem State.endRead_k : s.endRead.k = 0 := rfl
@[simp] theorem State.endRead_attempt : s.endRead.attempt = 1 := rfl
@[simp] theorem State.endRead_asm : s.endRead.asm = [] := rfl
@[simp] theorem State.endRead_waiting : s.endRead.waiting = false := rfl
@[simp] theorem State.endRead_waiters : s.endRead.waiters = s.waiters := rfl
@[simp] theorem State.endRead_agenda : s.endRead.agenda = s.agenda := rfl
@[simp] theorem State.endRead_caller : s.endRead.caller = s.caller := rfl
@[simp] theorem State.endRead_responses : s.endRead.responses = s.responses := rfl
@[simp] theorem State.endRead_history : s.endRead.history = s.history := rfl

end Sys2Proof.Machine
end

