-- ==== Sys2Proof/Laws/Ops.lean ====
section
/-! SUPPORT. For each shared operation, everything it can do, said once: the provers cite these and do not unfold it. -/

namespace Sys2Proof.Machine

theorem canAcquire_iff (s : State) : s.canAcquire = true ↔ s.lock = .free ∧ s.phase = .idle := by
  simp [State.canAcquire]

theorem respond_eq (r : Result) (s : State) : respond r s = .next (s.responding (.ok r)) := rfl

theorem raise_eq (e : ErrorResponse) (s : State) : raise e s = .next (s.responding (.err e)) := rfl

/-- `complete` always gives one response to the caller on record and changes nothing else. -/
theorem complete_eq (r : Except ErrorResponse Result) (s : State) :
    complete r s = .next (s.responding (match r with | .ok v => .ok v | .error e => .err e)) := by
  cases r <;> rfl

/-- The start of a reader operation. -/
theorem startRead_eq (kind : ReadKind) (s : State) :
    startRead kind s =
      if s.conn = .closed then .refused .connectionClosed
      else if s.lock = .free ∧ s.phase = .idle then .next (s.beginRead ⟨s.caller, kind⟩)
      else .next (s.enqueue ⟨s.caller, kind⟩) := by
  unfold startRead
  cases s.conn <;> simp [canAcquire_iff]

/-- A waiting caller takes the lock, or nothing happens. -/
theorem acquireLock_cases (c : Caller) (s : State) :
    (∃ j, j ∈ s.waiters ∧ j.caller = c ∧ s.lock = .free ∧ s.phase = .idle ∧
      acquireLock c s = .next (({ s with waiters := s.waiters.erase j } : State).beginRead j)) ∨
    acquireLock c s = .next s := by
  unfold acquireLock
  cases h : s.waiters.find? (fun j => j.caller == c) with
  | none => exact .inr rfl
  | some j =>
    by_cases hc : s.canAcquire = true
    · refine .inl ⟨j, List.mem_of_find?_eq_some h, by simpa using List.find?_some h, (canAcquire_iff s).1 hc |>.1,
        (canAcquire_iff s).1 hc |>.2, by simp [hc]⟩
    · exact .inr (by simp [hc])

/-- What the answer to an attempt can do. -/
theorem transportAnswers_cases (a : Answer) (s : State) :
    ((s.phase ≠ .attempting ∨ s.waiting = true) ∧ transportAnswers a s = .next s) ∨
    (s.phase = .attempting ∧ s.waiting = false ∧ (s.job = none ∨ ∃ j, s.job = some j ∧ j.kind.blocks[s.k]? = none) ∧
      transportAnswers a s = .fault .readerInconsistent) ∨
    (∃ j b, s.phase = .attempting ∧ s.waiting = false ∧ s.job = some j ∧ j.kind.blocks[s.k]? = some b ∧
      ((∃ ws, a.wordsOf b.count = some ws ∧
          transportAnswers a s = .next (blockRead j ws (s.record (.memRead j.caller b.addr b.count a)))) ∨
        (a.wordsOf b.count = none ∧
          transportAnswers a s = .next (attemptFailed (s.record (.memRead j.caller b.addr b.count a)))))) := by
  unfold transportAnswers
  cases hp : s.phase <;> cases hw : s.waiting <;> simp
  cases hj : s.job with
  | none => simp
  | some j =>
    cases hb : j.kind.blocks[s.k]? with
    | none => simpa [hb] using List.getElem?_eq_none_iff.1 hb
    | some b => cases ha : a.wordsOf b.count <;> simp [hb, ha]

/-- What the reader's own action can do. -/
theorem readerActs_cases (s : State) :
    ((s.phase = .idle ∨ s.phase = .attempting ∧ s.waiting = false) ∧ readerActs s = .next s) ∨
    (∃ j, s.phase = .attempting ∧ s.waiting = true ∧ s.job = some j ∧
      readerActs s = .next ((s.record (.waited j.caller)).endWait)) ∨
    (∃ j r, s.phase = .success ∧ s.job = some j ∧ readResponse j.kind s.asm = some r ∧
      readerActs s = .next (s.endRead.answerTo j.caller r)) ∨
    (∃ j b, s.phase = .exhausted ∧ s.job = some j ∧ j.kind.blocks[s.k]? = some b ∧
      readerActs s = .next (s.endRead.answerTo j.caller (.err (.transportError b.addr)))) ∨
    ((s.job = none ∨ ∃ j, s.job = some j ∧
        (s.phase = .success ∧ readResponse j.kind s.asm = none ∨ s.phase = .exhausted ∧ j.kind.blocks[s.k]? = none)) ∧
      s.phase ≠ .idle ∧ (s.phase = .attempting → s.waiting = true) ∧ readerActs s = .fault .readerInconsistent) := by
  unfold readerActs
  cases hp : s.phase <;> cases hw : s.waiting <;> cases hj : s.job <;> simp
  all_goals rename_i j
  · cases hr : readResponse j.kind s.asm <;> simp
  · cases hr : readResponse j.kind s.asm <;> simp
  all_goals
    cases hb : j.kind.blocks[s.k]? with
    | none => simpa using List.getElem?_eq_none_iff.1 hb
    | some b => simp

/-- A pure operation's whole effect: one response, a function of the instruction alone. -/
def pureResponse (i : Instr) : Option Response :=
  match i with
  | .scaleV a => some (.ok (.f32 (scaleVolt a)))
  | .scaleI a => some (.ok (.f32 (scaleCurr a)))
  | .scaleAH a => some (.ok (.f32 (scaleAmpHours a)))
  | .temp a => some (.ok (.temperature (temperatureField a)))
  | .decState a => some (match decodeState a with | .ok st => .ok (.operatingState st) | .error e => .err e)
  | .decFault a => some (match decodeFault a with | .ok f => .ok (.faultSet f) | .error e => .err e)
  | .fsUnion a b => some (.ok (.faultSet (a ||| b)))
  | .fsInter a b => some (.ok (.faultSet (a &&& b)))
  | .fsEq a b => some (.ok (.boolean (a == b)))
  | .decStatus buf => some (match decodeStatus buf with | .ok x => .ok (.snapshot x) | .error e => .err e)
  | .decLogday slot => some (.ok (.logDay (decodeLogDay slot)))
  | .buildLog buf => some (.ok (.logCollection (logCollection buf)))
  | .rdStatus => none
  | .rdLogged => none
  | .rdBlock _ _ => none

/-- Everything `exec` can do, by the kind of the instruction. -/
theorem exec_of_pureResponse {i : Instr} {r : Response} (h : pureResponse i = some r) (s : State) :
    exec i s = .next (s.responding r) := by
  cases i <;> simp only [pureResponse, Option.some.injEq, reduceCtorEq] at h
  case decState a =>
    subst h
    rw [exec, execDecState, complete_eq]
    cases decodeState a <;> rfl
  case decFault a =>
    subst h
    rw [exec, execDecFault, complete_eq]
    cases decodeFault a <;> rfl
  case decStatus buf =>
    subst h
    rw [exec, execDecStatus, complete_eq]
    cases decodeStatus buf <;> rfl
  all_goals (subst h; rfl)

theorem exec_of_readKindOf {i : Instr} {kind : ReadKind} (h : readKindOf i = some kind) (s : State) :
    exec i s = startRead kind s := by
  cases i <;> simp only [readKindOf, Option.some.injEq, reduceCtorEq] at h <;> subst h <;> rfl

theorem pureResponse_or_readKind (i : Instr) :
    (∃ r, pureResponse i = some r ∧ readKindOf i = none) ∨ ∃ kind, readKindOf i = some kind ∧ pureResponse i = none := by
  cases i <;> simp [pureResponse, readKindOf]

/-- Everything serving a request can do. -/
theorem serveRequest_cases (c : Caller) (r : Request) (s : State) :
    (∃ i, decode r = .ok i ∧ serveRequest c r s = exec i { s with caller := c }) ∨
    (∃ op, decode r = .error (.reservedOp op) ∧
      serveRequest c r s = .next (({ s with caller := c } : State).responding (.err (.illegalOp op)))) ∨
    (∃ op n, decode r = .error (.bufferLength op n) ∧ serveRequest c r s = .refused .malformedRequest) := by
  unfold serveRequest
  cases h : decode r with
  | ok i => exact .inl ⟨i, rfl, rfl⟩
  | error e =>
    cases e with
    | reservedOp op => exact .inr (.inl ⟨op, rfl, rfl⟩)
    | bufferLength op n => exact .inr (.inr ⟨op, n, rfl, rfl⟩)

theorem step_nil {s : State} (h : s.agenda = []) : step s = .next s := by
  simp [step, h]

theorem step_cons {s : State} {m : Move} {rest : List Move} (h : s.agenda = m :: rest) :
    step s = makeMove m { s with agenda := rest } := by
  simp [step, h]

end Sys2Proof.Machine
end

