-- ==== Sys2Proof/Laws/Units.lean ====
section
/-! SUPPORT. When the two closed-set decoders succeed and with what, and which errors the decoders can give. -/

namespace Sys2Proof.Machine

/-- DEC_STATE in one line: legal words give the state of that number, others the error with the word. -/
theorem decodeState_cases (raw : Word) :
    (raw.toNat ≤ 8 ∧ ∃ st, decodeState raw = .ok st ∧ st.number.toNat = raw.toNat) ∨
    (8 < raw.toNat ∧ decodeState raw = .error (.unknownState raw)) := by
  unfold decodeState
  generalize raw.toNat = n
  by_cases h : n ≤ 8
  · refine .inl ⟨h, ?_⟩
    interval_cases n <;> exact ⟨_, rfl, rfl⟩
  · obtain ⟨m, rfl⟩ : ∃ m, n = m + 9 := ⟨n - 9, by omega⟩
    exact .inr ⟨by omega, rfl⟩

/-- DEC_FAULT in one line. -/
theorem decodeFault_cases (raw : Word) :
    (raw &&& 0xFE00 = 0 ∧ decodeFault raw = .ok (raw.extractLsb' 0 9)) ∨
    (raw &&& 0xFE00 ≠ 0 ∧ decodeFault raw = .error (.unknownFaultBits raw)) := by
  unfold decodeFault
  have h : (~~~Config.faultMask : Word) = 0xFE00 := by decide
  rw [h]
  split
  · exact .inl ⟨‹_›, rfl⟩
  · exact .inr ⟨‹_›, rfl⟩

/-- DEC_STATUS's three outcomes, in the order of R101. -/
theorem decodeStatus_cases (buf : Buffer 44) :
    (8 < (bufferWord buf 9).toNat ∧ decodeStatus buf = .error (.unknownState (bufferWord buf 9))) ∨
    ((bufferWord buf 9).toNat ≤ 8 ∧ bufferWord buf 10 &&& 0xFE00 ≠ 0 ∧
      decodeStatus buf = .error (.unknownFaultBits (bufferWord buf 10))) ∨
    ∃ x, (bufferWord buf 9).toNat ≤ 8 ∧ bufferWord buf 10 &&& 0xFE00 = 0 ∧ decodeStatus buf = .ok x := by
  unfold decodeStatus
  obtain ⟨h9, st, hs, _⟩ | ⟨h9, hs⟩ := decodeState_cases (bufferWord buf 9)
  · obtain ⟨h10, hf⟩ | ⟨h10, hf⟩ := decodeFault_cases (bufferWord buf 10)
    · exact .inr (.inr ⟨_, h9, h10, by simp only [hs, hf]; rfl⟩)
    · exact .inr (.inl ⟨h9, h10, by simp only [hs, hf]⟩)
  · exact .inl ⟨h9, by simp only [hs]⟩

/-- A word of a buffer as the list's own. -/
theorem bufferWord_eq_getD {n : Nat} (buf : Buffer n) (i : Fin n) : bufferWord buf i = buf.words.getD i 0 := by
  have h : (i : Nat) < buf.words.length := by rw [buf.length_words]; exact i.isLt
  simp [bufferWord, List.getD_eq_getElem?_getD, List.getElem?_eq_getElem h]

/-- No pure operation answers TransportError: only the reader does (60_exceptions.md R165). -/
theorem pureResponse_ne_transportError {i : Instr} {r : Response} (h : pureResponse i = some r) (addr : Word) :
    r ≠ .err (.transportError addr) := by
  cases i <;> simp only [pureResponse, Option.some.injEq, reduceCtorEq] at h <;> subst h <;> try (simp; done)
  case decState a => obtain ⟨_, _, e, _⟩ | ⟨_, e⟩ := decodeState_cases a <;> simp [e]
  case decFault a => obtain ⟨_, e⟩ | ⟨_, e⟩ := decodeFault_cases a <;> simp [e]
  case decStatus buf => obtain ⟨_, e⟩ | ⟨_, _, e⟩ | ⟨_, _, _, e⟩ := decodeStatus_cases buf <;> simp [e]

end Sys2Proof.Machine
end

