-- ==== Sys2Proof/Laws/Log.lean ====
section
/-! SUPPORT. The packed log fields byte by byte, the words a slot is read from, and what the stable insertion keeps
(44_log_unpacker.md R111, R113; 45_log_collection.md R131). -/

namespace Sys2Proof.Machine

/-! ## Bytes -/

theorem toNat_append_byte {n : Nat} (x : BitVec n) (y : BitVec 8) : (x ++ y).toNat = x.toNat * 256 + y.toNat := by
  have h : y.toNat < 2 ^ 8 := y.isLt
  rw [BitVec.toNat_append, Nat.shiftLeft_eq, Nat.mul_comm, ← Nat.two_pow_add_eq_or_of_lt h, Nat.mul_comm]

theorem hiByte_toNat (w : Word) : (hiByte w).toNat = w.toNat / 256 := by
  have h := w.isLt
  rw [hiByte, BitVec.extractLsb'_toNat, Nat.shiftRight_eq_div_pow]
  omega

theorem loByte_toNat (w : Word) : (loByte w).toNat = w.toNat % 256 := by
  rw [loByte, BitVec.extractLsb'_toNat, Nat.shiftRight_zero]

/-- The hourmeter's bytes, most significant first (R111). -/
theorem hourmeterField_eq_bytes (w0 w1 : Word) : hourmeterField w0 w1 = hiByte w1 ++ loByte w0 ++ hiByte w0 := by
  apply BitVec.eq_of_getLsbD_eq
  intro i hi
  simp only [hourmeterField, bswap32, joinWords, zext32, hiByte, loByte, BitVec.getLsbD_setWidth, BitVec.getLsbD_append,
    BitVec.getLsbD_extractLsb', BitVec.getLsbD_and, BitVec.getLsbD_or, BitVec.getLsbD_shiftLeft]
  interval_cases i <;> simp

/-- The alarm's bytes to the letter, most significant first (R113). -/
theorem alarmField_eq_bytes (w1 w2 : Word) : alarmField w1 w2 = loByte w2 ++ hiByte w2 ++ loByte w1 ++ (0 : BitVec 8) := by
  apply BitVec.eq_of_getLsbD_eq
  intro i hi
  simp only [alarmField, bswap32, joinWords, zext32, hiByte, loByte, BitVec.getLsbD_append, BitVec.getLsbD_extractLsb',
    BitVec.getLsbD_and, BitVec.getLsbD_or, BitVec.getLsbD_shiftLeft, BitVec.getLsbD_setWidth]
  interval_cases i <;> simp

/-! ## Words -/

theorem bufferWord_congr {n : Nat} {b b' : Buffer n} (i : Fin n) (h : b.words[(i : Nat)]? = b'.words[(i : Nat)]?) :
    bufferWord b i = bufferWord b' i := by
  rw [bufferWord_eq_getD, bufferWord_eq_getD, List.getD_eq_getElem?_getD, List.getD_eq_getElem?_getD, h]

theorem bufferWord_logSlot (buf : Buffer 512) (i : Fin 32) (j : Fin 16) :
    bufferWord (logSlot buf i) j = buf.words.getD (16 * i + j) 0 := by
  rw [bufferWord_eq_getD, List.getD_eq_getElem?_getD, List.getD_eq_getElem?_getD]
  simp [logSlot, List.getElem?_drop]

theorem decodeLogDay_isSome (slot : Buffer 16) :
    (decodeLogDay slot).isSome = !isSentinel (hourmeterField (bufferWord slot 0) (bufferWord slot 1)) := by
  unfold decodeLogDay
  simp only
  split <;> simp_all

/-! ## Insertion -/

theorem insertByHourmeter_perm (r : LogDayRecord) (rs : List LogDayRecord) : (insertByHourmeter r rs).Perm (r :: rs) := by
  induction rs with
  | nil => exact .refl _
  | cons q qs ih =>
    unfold insertByHourmeter
    split
    · exact .refl _
    · exact (ih.cons q).trans (.swap _ _ _)

theorem insertByHourmeter_sorted (r : LogDayRecord) (rs : List LogDayRecord)
    (h : rs.Pairwise fun p q => p.hourmeter.toNat ≤ q.hourmeter.toNat) :
    (insertByHourmeter r rs).Pairwise fun p q => p.hourmeter.toNat ≤ q.hourmeter.toNat := by
  induction rs with
  | nil => simp [insertByHourmeter]
  | cons q qs ih =>
    unfold insertByHourmeter
    rw [List.pairwise_cons] at h
    split <;> rename_i hle <;> rw [BitVec.le_def] at hle
    · rw [List.pairwise_cons, List.pairwise_cons]
      refine ⟨?_, h⟩
      intro x hx
      rcases List.mem_cons.1 hx with rfl | hx
      · exact hle
      · exact hle.trans (h.1 x hx)
    · rw [List.pairwise_cons]
      refine ⟨?_, ih h.2⟩
      intro x hx
      rcases List.mem_cons.1 ((insertByHourmeter_perm r qs).mem_iff.1 hx) with rfl | hx
      · omega
      · exact h.1 x hx

/-- Equal keys keep their order. -/
theorem insertByHourmeter_filter (r : LogDayRecord) (rs : List LogDayRecord) (h : Hourmeter) :
    (insertByHourmeter r rs).filter (fun r => r.hourmeter == h) = (r :: rs).filter (fun r => r.hourmeter == h) := by
  induction rs with
  | nil => rfl
  | cons q qs ih =>
    unfold insertByHourmeter
    split
    · rfl
    · rename_i hle
      rw [List.filter_cons, ih]
      have hne : ¬ (q.hourmeter == h && r.hourmeter == h) := by
        simp only [Bool.and_eq_true, beq_iff_eq, not_and]
        rintro h1 h2
        exact hle (by rw [h1, h2]; exact BitVec.le_refl _)
      by_cases h1 : q.hourmeter == h <;> by_cases h2 : r.hourmeter == h <;> simp_all

end Sys2Proof.Machine
end

