-- ==== Sys2Proof/Laws/PerInstr.lean ====
section
/-! SUPPORT. For every instruction: the request written for it is well formed, canonical, and carries its operation code
(30_encoding.md R47, R48, R51). -/

namespace Sys2Proof.Laws.EncodeWellFormed

def Statement (i : Instr) : Prop :=
  (encode i).wellFormed = true ∧ (encode i).canonical = true

/-- The operations with one operand word. -/
theorem of_word (op : BitVec 4) (hm : usedMask op.toNat = packCmd 0xF 0 0xFFFF) (hl : operandLength op.toNat = 0) (a : Word) :
    (⟨packCmd op 0 a, []⟩ : Request).wellFormed = true ∧ (⟨packCmd op 0 a, []⟩ : Request).canonical = true :=
  ⟨wellFormed_packCmd hl.symm, canonical_packCmd hm rfl BitVec.and_allOnes⟩

/-- The operations with two FaultSets. -/
theorem of_faultSets (op : BitVec 4) (hm : usedMask op.toNat = packCmd 0xF 0x01FF 0x01FF) (hl : operandLength op.toNat = 0)
    (a b : FaultSet) :
    (⟨packCmd op (faultSetWord b) (faultSetWord a), []⟩ : Request).wellFormed = true ∧
      (⟨packCmd op (faultSetWord b) (faultSetWord a), []⟩ : Request).canonical = true :=
  ⟨wellFormed_packCmd hl.symm, canonical_packCmd hm (faultSetWord_and_mask b) (faultSetWord_and_mask a)⟩

/-- The operations without an operand word. -/
theorem of_buffer (op : BitVec 4) (hm : usedMask op.toNat = packCmd 0xF 0 0) {ws : List Word}
    (hl : ws.length = operandLength op.toNat) :
    (⟨packCmd op 0 0, ws⟩ : Request).wellFormed = true ∧ (⟨packCmd op 0 0, ws⟩ : Request).canonical = true :=
  ⟨wellFormed_packCmd hl, canonical_packCmd hm rfl rfl⟩

theorem scaleV (a : Word) : Statement (.scaleV a) := of_word 0x0 (by decide) (by decide) a

theorem scaleI (a : Word) : Statement (.scaleI a) := of_word 0x1 (by decide) (by decide) a

theorem scaleAH (a : Word) : Statement (.scaleAH a) := of_word 0x2 (by decide) (by decide) a

theorem temp (a : Word) : Statement (.temp a) := of_word 0x3 (by decide) (by decide) a

theorem decState (a : Word) : Statement (.decState a) := of_word 0x4 (by decide) (by decide) a

theorem decFault (a : Word) : Statement (.decFault a) := of_word 0x5 (by decide) (by decide) a

theorem fsUnion (a b : FaultSet) : Statement (.fsUnion a b) := of_faultSets 0x6 (by decide) (by decide) a b

theorem fsInter (a b : FaultSet) : Statement (.fsInter a b) := of_faultSets 0x7 (by decide) (by decide) a b

theorem fsEq (a b : FaultSet) : Statement (.fsEq a b) := of_faultSets 0x8 (by decide) (by decide) a b

theorem decStatus (buf : Buffer 44) : Statement (.decStatus buf) :=
  of_buffer 0x9 (by decide) buf.length_words

theorem decLogday (slot : Buffer 16) : Statement (.decLogday slot) :=
  of_buffer 0xA (by decide) slot.length_words

theorem buildLog (buf : Buffer 512) : Statement (.buildLog buf) :=
  of_buffer 0xB (by decide) buf.length_words

theorem rdStatus : Statement .rdStatus := of_buffer 0xC (by decide) rfl

theorem rdLogged : Statement .rdLogged := of_buffer 0xD (by decide) rfl

theorem rdBlock (a b : Word) : Statement (.rdBlock a b) :=
  ⟨wellFormed_packCmd rfl, canonical_packCmd (mb := 0xFFFF) (ma := 0xFFFF) (by decide) BitVec.and_allOnes BitVec.and_allOnes⟩

end Sys2Proof.Laws.EncodeWellFormed
end

