-- ==== Sys2Proof/Laws/Reader.lean ====
section
/-! SUPPORT. Small facts of the block reader: which answers succeed, the words of block lists, the fresh reader. -/

namespace Sys2Proof.Machine

theorem wordsOf_eq_some_iff {a : Answer} {n : Nat} {ws : List Word} :
    a.wordsOf n = some ws ↔ a = .ok ws ∧ ws.length = n := by
  cases a with
  | err => simp [Answer.wordsOf]
  | ok vs =>
    simp only [Answer.wordsOf, Option.ite_none_right_eq_some, Option.some.injEq, Answer.ok.injEq]
    constructor
    · rintro ⟨h, rfl⟩
      exact ⟨rfl, h⟩
    · rintro ⟨rfl, h⟩
      exact ⟨h, rfl⟩

theorem wordsOf_eq_none_iff {a : Answer} {n : Nat} : a.wordsOf n = none ↔ ∀ ws, a = .ok ws → ws.length ≠ n := by
  cases a <;> simp [Answer.wordsOf]

theorem wordsOfBlocks_zero (blocks : List Block) : wordsOfBlocks blocks 0 = 0 := rfl

theorem wordsOfBlocks_succ {blocks : List Block} {k : Nat} {b : Block} (h : blocks[k]? = some b) :
    wordsOfBlocks blocks (k + 1) = wordsOfBlocks blocks k + b.count := by
  unfold wordsOfBlocks
  rw [List.take_add_one, h]
  simp

theorem blocks_length_pos (kind : ReadKind) : 0 < kind.blocks.length := by
  cases kind <;> simp [ReadKind.blocks]

theorem status_words : wordsOfBlocks ReadKind.status.blocks ReadKind.status.blocks.length = 44 := rfl

theorem log_words : wordsOfBlocks ReadKind.log.blocks ReadKind.log.blocks.length = 512 := rfl

theorem asBuffer_of_length {n : Nat} {ws : List Word} (h : ws.length = n) : asBuffer n ws = some ⟨ws, h⟩ := by
  simp [asBuffer, h]

/-- A read that has just begun is consistent. -/
theorem consistent_beginRead {s : State} (j : Job) (opened : s.conn = .opened) : Consistent (s.beginRead j) :=
  ⟨⟨j, rfl, rfl, blocks_length_pos _, Nat.le_refl _, by simp, by simp, by simp [wordsOfBlocks_zero]⟩, by simp [opened]⟩

end Sys2Proof.Machine
end

