-- ==== Sys2Proof/Laws/Step.lean ====
section
/-! SUPPORT. Everything a step that answers a next state can do, said once: every claim about all steps is a case analysis over
`StepEffect`. -/

namespace Sys2Proof.Machine

/-- `StepEffect s u m t`: from `s`, which is `u` before the move `m` was taken off the agenda, that move leads to `t`. -/
inductive StepEffect (s u : State) : Move → State → Prop
  /-- The move is not enabled, or opens nothing. -/
  | nothing (m : Move) : StepEffect s u m u
  /-- A request is answered at once; never with a TransportError. -/
  | answered (c : Caller) (r : Request) (resp : Response) (notTransport : ∀ addr, resp ≠ .err (.transportError addr)) :
      StepEffect s u (.request c r) (({ u with caller := c } : State).responding resp)
  /-- A reader operation takes the free lock. -/
  | started (c : Caller) (r : Request) (kind : ReadKind) (opened : s.conn = .opened) (free : s.lock = .free)
      (idle : s.phase = .idle) :
      StepEffect s u (.request c r) (({ u with caller := c } : State).beginRead ⟨c, kind⟩)
  /-- A reader operation waits. -/
  | queued (c : Caller) (r : Request) (kind : ReadKind) (opened : s.conn = .opened) (busy : ¬(s.lock = .free ∧ s.phase = .idle)) :
      StepEffect s u (.request c r) (({ u with caller := c } : State).enqueue ⟨c, kind⟩)
  /-- The connection opens. -/
  | connected : StepEffect s u .connect u.connect
  /-- A waiter takes the lock. -/
  | acquired (j : Job) (waits : j ∈ s.waiters) (free : s.lock = .free) (idle : s.phase = .idle) :
      StepEffect s u (.acquire j.caller) (({ u with waiters := s.waiters.erase j } : State).beginRead j)
  /-- An attempt succeeds. -/
  | attemptOk (a : Answer) (j : Job) (b : Block) (ws : List Word) (attempting : s.phase = .attempting)
      (notWaiting : s.waiting = false) (job : s.job = some j) (block : j.kind.blocks[s.k]? = some b)
      (words : a.wordsOf b.count = some ws) :
      StepEffect s u (.answer a) (blockRead j ws (u.record (.memRead j.caller b.addr b.count a)))
  /-- An attempt fails. -/
  | attemptErr (a : Answer) (j : Job) (b : Block) (attempting : s.phase = .attempting) (notWaiting : s.waiting = false)
      (job : s.job = some j) (block : j.kind.blocks[s.k]? = some b) (words : a.wordsOf b.count = none) :
      StepEffect s u (.answer a) (attemptFailed (u.record (.memRead j.caller b.addr b.count a)))
  /-- A wait ends. -/
  | waitEnded (j : Job) (attempting : s.phase = .attempting) (waiting : s.waiting = true) (job : s.job = some j) :
      StepEffect s u .reader (u.record (.waited j.caller)).endWait
  /-- A successful read is answered. -/
  | readDone (j : Job) (resp : Response) (success : s.phase = .success) (job : s.job = some j)
      (decoded : readResponse j.kind s.asm = some resp) : StepEffect s u .reader (u.endRead.answerTo j.caller resp)
  /-- An exhausted read is answered. -/
  | readFailed (j : Job) (b : Block) (exhausted : s.phase = .exhausted) (job : s.job = some j)
      (block : j.kind.blocks[s.k]? = some b) :
      StepEffect s u .reader (u.endRead.answerTo j.caller (.err (.transportError b.addr)))

theorem serveRequest_effect (s u t : State) (c : Caller) (r : Request) (hc : s.conn = u.conn) (hl : s.lock = u.lock)
    (hp : s.phase = u.phase) (h : serveRequest c r u = .next t) : StepEffect s u (.request c r) t := by
  obtain ⟨i, _, e⟩ | ⟨op, _, e⟩ | ⟨op, n, _, e⟩ := serveRequest_cases c r u
  · rw [e] at h
    obtain ⟨resp, hr, _⟩ | ⟨kind, hk, _⟩ := pureResponse_or_readKind i
    · rw [exec_of_pureResponse hr, Host.Outcome.next.injEq] at h
      exact h ▸ .answered c r resp (pureResponse_ne_transportError hr)
    · rw [exec_of_readKindOf hk, startRead_eq] at h
      split at h
      · cases h
      · rename_i hcl
        have ho : s.conn = .opened := by
          cases hh : u.conn
          · exact absurd hh hcl
          · rw [hc, hh]
        split at h <;> rename_i hfree <;> rw [Host.Outcome.next.injEq] at h
        · exact h ▸ .started c r kind ho (hl.trans hfree.1) (hp.trans hfree.2)
        · exact h ▸ .queued c r kind ho (by rw [hl, hp]; exact hfree)
  · rw [e, Host.Outcome.next.injEq] at h
    exact h ▸ .answered c r _ (by simp)
  · rw [e] at h
    cases h

/-- The inversion of `step`: it stutters on an empty agenda, or its first move has one of the effects above. -/
theorem step_effect {s t : State} (h : step s = .next t) :
    (s.agenda = [] ∧ t = s) ∨
    ∃ m rest, s.agenda = m :: rest ∧ StepEffect s { s with agenda := rest } m t := by
  cases hag : s.agenda with
  | nil =>
    rw [step_nil hag, Host.Outcome.next.injEq] at h
    exact .inl ⟨rfl, h.symm⟩
  | cons m rest =>
    refine .inr ⟨m, rest, rfl, ?_⟩
    rw [step_cons hag] at h
    cases m with
    | request c r => exact serveRequest_effect s _ t c r rfl rfl rfl h
    | connect =>
      rw [makeMove, Host.Outcome.next.injEq] at h
      exact h ▸ .connected
    | acquire c =>
      rw [makeMove] at h
      obtain ⟨j, hw, hc, hl, hp, e⟩ | e := acquireLock_cases c { s with agenda := rest } <;>
        rw [e, Host.Outcome.next.injEq] at h <;> subst h
      · exact hc ▸ .acquired j hw hl hp
      · exact .nothing _
    | answer a =>
      rw [makeMove] at h
      obtain ⟨_, e⟩ | ⟨_, _, _, e⟩ | ⟨j, b, hp, hw, hj, hb, ⟨ws, ha, e⟩ | ⟨ha, e⟩⟩ :=
        transportAnswers_cases a { s with agenda := rest } <;> rw [e] at h <;>
        first
        | (rw [Host.Outcome.next.injEq] at h; subst h)
        | cases h
      · exact .nothing _
      · exact .attemptOk a j b ws hp hw hj hb ha
      · exact .attemptErr a j b hp hw hj hb ha
    | reader =>
      rw [makeMove] at h
      obtain ⟨_, e⟩ | ⟨j, hp, hw, hj, e⟩ | ⟨j, r, hp, hj, hr, e⟩ | ⟨j, b, hp, hj, hb, e⟩ | ⟨_, _, _, e⟩ :=
        readerActs_cases { s with agenda := rest } <;> rw [e] at h <;>
        first
        | (rw [Host.Outcome.next.injEq] at h; subst h)
        | cases h
      · exact .nothing _
      · exact .waitEnded j hp hw hj
      · exact .readDone j r hp hj hr
      · exact .readFailed j b hp hj hb

/-- When a step faults, the reader's own fields contradict one another. -/
theorem step_fault {s : State} {r : Fault} (h : step s = .fault r) :
    s.phase ≠ .idle ∧ (s.job = none ∨ ∃ j, s.job = some j ∧
      (s.phase ≠ .success ∧ j.kind.blocks[s.k]? = none ∨ s.phase = .success ∧ readResponse j.kind s.asm = none)) := by
  cases hag : s.agenda with
  | nil => rw [step_nil hag] at h; cases h
  | cons m rest =>
    rw [step_cons hag] at h
    cases m with
    | request c r =>
      rw [makeMove] at h
      obtain ⟨i, _, e⟩ | ⟨op, _, e⟩ | ⟨op, n, _, e⟩ := serveRequest_cases c r { s with agenda := rest } <;> rw [e] at h
      · obtain ⟨resp, hr, _⟩ | ⟨kind, hk, _⟩ := pureResponse_or_readKind i
        · rw [exec_of_pureResponse hr] at h
          cases h
        · rw [exec_of_readKindOf hk, startRead_eq] at h
          split at h
          · cases h
          · split at h <;> cases h
      · cases h
      · cases h
    | connect => cases h
    | acquire c =>
      rw [makeMove] at h
      obtain ⟨j, _, _, _, _, e⟩ | e := acquireLock_cases c { s with agenda := rest } <;> rw [e] at h <;> cases h
    | answer a =>
      rw [makeMove] at h
      obtain ⟨_, e⟩ | ⟨hp, _, hj, e⟩ | ⟨_, _, _, _, _, _, ⟨_, _, e⟩ | ⟨_, e⟩⟩ :=
        transportAnswers_cases a { s with agenda := rest } <;> rw [e] at h <;> try cases h
      have hp' : s.phase = .attempting := hp
      refine ⟨by simp [hp'], ?_⟩
      obtain hj | ⟨j, hj, hb⟩ := hj
      · exact .inl hj
      · exact .inr ⟨j, hj, .inl ⟨by simp [hp'], hb⟩⟩
    | reader =>
      rw [makeMove] at h
      obtain ⟨_, e⟩ | ⟨_, _, _, _, e⟩ | ⟨_, _, _, _, _, e⟩ | ⟨_, _, _, _, _, e⟩ | ⟨hj, hi, _, e⟩ :=
        readerActs_cases { s with agenda := rest } <;> rw [e] at h <;> try cases h
      refine ⟨hi, ?_⟩
      obtain hj | ⟨j, hj, ⟨hp, hr⟩ | ⟨hp, hb⟩⟩ := hj
      · exact .inl hj
      · exact .inr ⟨j, hj, .inr ⟨hp, hr⟩⟩
      · have hp' : s.phase = .exhausted := hp
        exact .inr ⟨j, hj, .inl ⟨by simp [hp'], hb⟩⟩

/-! ## Runs -/

@[simp] theorem runFor_zero (s : State) : runFor 0 s = .next s := rfl

theorem runFor_succ_of_next {n : Nat} {s t : State} (h : step s = .next t) : runFor (n + 1) s = runFor n t := by
  rw [runFor, h]

theorem runFor_succ_of_fault {n : Nat} {s : State} {r : Fault} (h : step s = .fault r) : runFor (n + 1) s = .fault r := by
  rw [runFor, h]

theorem runFor_succ_of_refused {n : Nat} {s : State} {r : Refusal} (h : step s = .refused r) :
    runFor (n + 1) s = .refused r := by
  rw [runFor, h]

/-- A function that follows a machine's step as `Host.Core.run` does is `Host.Core.run`. -/
theorem eq_core_run (M : Host.Core) (f : Nat → M.State → Host.Outcome M.State M.Fault M.Refusal)
    (zero : ∀ s, f 0 s = .next s) (next : ∀ n s t, M.step s = .next t → f (n + 1) s = f n t)
    (fault : ∀ n s r, M.step s = .fault r → f (n + 1) s = .fault r)
    (refused : ∀ n s r, M.step s = .refused r → f (n + 1) s = .refused r) (n : Nat) (s : M.State) : f n s = M.run n s := by
  induction n generalizing s with
  | zero => exact zero s
  | succ n ih =>
    rw [Host.Core.run]
    cases h : M.step s with
    | next t => exact (next n s t h).trans (ih t)
    | fault r => exact fault n s r h
    | refused r => exact refused n s r h

/-- `runFor` is the host's run of this machine. -/
theorem runFor_eq_core_run (n : Nat) (s : State) : runFor n s = Host.Core.run core n s :=
  eq_core_run core runFor (fun _ => rfl) (fun _ _ _ h => runFor_succ_of_next h) (fun _ _ _ h => runFor_succ_of_fault h)
    (fun _ _ _ h => runFor_succ_of_refused h) n s

end Sys2Proof.Machine
end

