-- ==== Sys2Proof/Machine/Pseudo.lean ====
section
/-! DEFINITION. The pseudo-operations: the source's own function calls and what each expands to (30_encoding.md R63). -/

namespace Sys2Proof.Machine

/-- The left column of R63's table. -/
inductive SourceCall
  | scaleVoltageOrCurrent (raw : Word) (fullScale : F32)
  | asF32TimesTenth (x : Word)
  | decodeTemperature (raw : Word)
  | decodeOperatingState (raw : Word)
  | decodeFaultSet (raw : Word)
  | decodeStatus (buf : Buffer 44)
  | decodeLogDay (slot : Buffer 16)
  | buildLogCollection (buf : Buffer 512)
  | readStatus
  | readLogged
  | readBlock (address count : Word)
  | batteryVoltageMin (slot : Buffer 16)
  | batteryVoltageMax (slot : Buffer 16)
  | batteryChargeDaily (slot : Buffer 16)
  | loadChargeDaily (slot : Buffer 16)
  | arrayVoltageMax (slot : Buffer 16)
deriving DecidableEq, Repr

/-- The right column. None for a full-scale constant that the unit's table does not hold: "refused" (R63, R71, D8). -/
def expand (call : SourceCall) : Option Instr :=
  match call with
  | .scaleVoltageOrCurrent raw fullScale =>
    if fullScale = Config.fsVolt then some (.scaleV raw)
    else if fullScale = Config.fsCurr then some (.scaleI raw)
    else none
  | .asF32TimesTenth x => some (.scaleAH x)
  | .decodeTemperature raw => some (.temp raw)
  | .decodeOperatingState raw => some (.decState raw)
  | .decodeFaultSet raw => some (.decFault raw)
  | .decodeStatus buf => some (.decStatus buf)
  | .decodeLogDay slot => some (.decLogday slot)
  | .buildLogCollection buf => some (.buildLog buf)
  | .readStatus => some .rdStatus
  | .readLogged => some .rdLogged
  | .readBlock address count => some (.rdBlock address count)
  | .batteryVoltageMin slot => some (.scaleV (bufferWord slot 3))
  | .batteryVoltageMax slot => some (.scaleV (bufferWord slot 4))
  | .batteryChargeDaily slot => some (.scaleAH (bufferWord slot 5))
  | .loadChargeDaily slot => some (.scaleAH (bufferWord slot 6))
  | .arrayVoltageMax slot => some (.scaleV (bufferWord slot 9))

end Sys2Proof.Machine
end

