-- ==== Sys2Proof/Tests/Slice0.lean ====
section
/-! SUPPORT. Tests. Expected values are the spec's own: spec/95_test_vectors.md (its sections and programs are named in each comment)
or the corner cases of the rules. The last part shows, for each statement with hypotheses, a state and operands that meet them. -/

namespace Sys2Proof.Tests

open Sys2Proof Sys2Proof.Machine

/-! ## Helpers -/

/-- Reset after the boot step, with these moves to come. -/
def ready (moves : List Move) : State := { State.resetWith moves with conn := .opened }

/-- Caller 7's logical read in progress. -/
def reading (kind : ReadKind) (k attempt : Nat) (asm : List Word) (moves : List Move) : State :=
  { ready moves with lock := .held 7, phase := .attempting, job := some ⟨7, kind⟩, k := k, attempt := attempt, asm := asm }

/-- Caller 7's logical read after its end. -/
def finished (phase : Phase) (kind : ReadKind) (k attempt : Nat) (asm : List Word) : State :=
  { ready [.reader] with phase := phase, job := some ⟨7, kind⟩, k := k, attempt := attempt, asm := asm }

/-- The last response given, when the outcome is a next state. -/
def lastResponse (o : Outcome) : Option (Caller × Response) :=
  match o with
  | .next s => s.responses.getLast?
  | .fault _ => none
  | .refused _ => none

/-- The reader's fields, when the outcome is a next state. -/
def readerOf (o : Outcome) : Option (Lock × Phase × Nat × Nat × Nat × Bool) :=
  match o with
  | .next s => some (s.lock, s.phase, s.k, s.attempt, s.asm.length, s.waiting)
  | .fault _ => none
  | .refused _ => none

/-- Buffer `S` of program P1, with the state and fault words given. -/
def statusWords (stateWord faultWord : Word) : List Word :=
  [0x1079, 0x1A84, 0x1011, 0x0035, 0x0000, 0x0017, 0x1640, 0x00FF, 0xFF80, stateWord, faultWord] ++ List.replicate 33 0xA5A5

def statusBuf (stateWord faultWord : Word) : Buffer 44 := ⟨statusWords stateWord faultWord, rfl⟩

/-- A slot from its first three words, the plain words of example S9, and any words 7, 8 and 10 to 15. -/
def slotWords (w0 w1 w2 x : Word) : List Word :=
  [w0, w1, w2, 0x1011, 0x11FB, 0x0047, 0x001B, x, x, 0x1A84, x, x, x, x, x, x]

def slotBuf (w0 w1 w2 x : Word) : Buffer 16 := ⟨slotWords w0 w1 w2 x, rfl⟩

/-- A log buffer with four given slots; the other 28 are unused. -/
def logWords : List Word :=
  slotWords 0x2509 0x0100 0x0000 0xAAAA ++ slotWords 0xFFFF 0xFF00 0x0000 0 ++ slotWords 0x2402 0x0100 0x0000 0 ++
    slotWords 0x2509 0x0100 0x0001 0 ++ List.replicate 448 0

def logBuf : Buffer 512 := ⟨logWords, by rw [logWords, List.length_append, List.length_replicate]; rfl⟩

/-! ## Decoding: a word of every row, bit by bit (R46, R48) -/

theorem test_decode_scaleV : decode ⟨0b0000_0000000000000000_0001000001111001, []⟩ = .ok (.scaleV 0x1079) := rfl
theorem test_decode_scaleI : decode ⟨0b0001_0000000000000000_0000000000110101, []⟩ = .ok (.scaleI 0x0035) := rfl
theorem test_decode_scaleAH : decode ⟨0b0010_0000000000000000_0000000001000111, []⟩ = .ok (.scaleAH 0x0047) := rfl
theorem test_decode_temp : decode ⟨0b0011_0000000000000000_0001011001000000, []⟩ = .ok (.temp 0x1640) := rfl
theorem test_decode_decState : decode ⟨0b0100_0000000000000000_0000000000001000, []⟩ = .ok (.decState 8) := rfl
theorem test_decode_decFault : decode ⟨0b0101_0000000000000000_0000000101010101, []⟩ = .ok (.decFault 0x0155) := rfl
/-- Section 2.7, last row: bits 15:9 of both operands are ignored. -/
theorem test_decode_fsUnion : decode ⟨0b0110_1111111100000000_1111111000000011, []⟩ = .ok (.fsUnion 0x003 0x100) := rfl
theorem test_decode_fsInter : decode ⟨0b0111_0000000100000001_0000000100000011, []⟩ = .ok (.fsInter 0x103 0x101) := rfl
theorem test_decode_fsEq : decode ⟨0b1000_0000000100000011_0000000000000011, []⟩ = .ok (.fsEq 0x003 0x103) := rfl
theorem test_decode_decStatus :
    decode ⟨0b1001_0000000000000000_0000000000000000, statusWords 5 3⟩ = .ok (.decStatus (statusBuf 5 3)) := rfl
theorem test_decode_decLogday :
    decode ⟨0b1010_0000000000000000_0000000000000000, slotWords 0x2402 0x0100 0 9⟩ =
      .ok (.decLogday (slotBuf 0x2402 0x0100 0 9)) := rfl
set_option maxRecDepth 100000 in
theorem test_decode_buildLog :
    decode ⟨0b1011_0000000000000000_0000000000000000, logWords⟩ = .ok (.buildLog logBuf) := rfl
theorem test_decode_rdStatus : decode ⟨0b1100_0000000000000000_0000000000000000, []⟩ = .ok .rdStatus := rfl
theorem test_decode_rdLogged : decode ⟨0b1101_0000000000000000_0000000000000000, []⟩ = .ok .rdLogged := rfl
/-- Program P4: `cmd 0xE_0016_0008`. -/
theorem test_decode_rdBlock : decode ⟨0b1110_0000000000010110_0000000000001000, []⟩ = .ok (.rdBlock 0x0008 22) := rfl

/-- Section 2.8. -/
theorem test_decode_reserved : decode ⟨0xFFFFFFFFF, []⟩ = .error (.reservedOp 0xF) := rfl

theorem test_table_word : decodeTableWord 40 0xC00000000 = some .rdStatus ∧ decodeTableWord 36 0x400000008 = some (.decState 8) ∧
    decodeTableWord 40 0x1400000008 = none ∧ decodeTableWord 36 0xF00000000 = none := by decide

/-! ## Well-formedness: each length is checked (R47) -/

theorem test_illFormed_decStatus : (⟨0x900000000, List.replicate 43 0⟩ : Request).wellFormed = false := by decide
theorem test_illFormed_decLogday : (⟨0xA00000000, List.replicate 17 0⟩ : Request).wellFormed = false := by decide
theorem test_illFormed_buildLog : (⟨0xB00000000, []⟩ : Request).wellFormed = false := by decide
theorem test_illFormed_scaleV : (⟨0x000001079, [0]⟩ : Request).wellFormed = false := by decide
theorem test_illFormed_rdStatus : (⟨0xC00000000, List.replicate 44 0⟩ : Request).wellFormed = false := by decide
theorem test_notCanonical_scaleV : (⟨0x0FFFF1079, []⟩ : Request).canonical = false := by decide
theorem test_notCanonical_fsUnion : (⟨0x6FF00FE03, []⟩ : Request).canonical = false := by decide
theorem test_refused_illFormed :
    step (ready [.request 0 ⟨0x900000000, List.replicate 43 0⟩]) = .refused .malformedRequest := rfl

/-! ## The units -/

/-- S1, section 2.1. -/
theorem test_scaleV_source : lastResponse (exec (.scaleV 0x1079) (ready [])) = some (0, .ok (.f32 0x414DE880)) := by decide
theorem test_scaleV_values : scaleVolt 0 = 0 ∧ scaleVolt 1 = 0x3B480000 ∧ scaleVolt 0x8001 = 0x42C80190 ∧
    scaleVolt 0xFFFF = 0x4347FF38 := by decide

/-- S2, section 2.2: 7 and 9 are ties. -/
theorem test_scaleI_source : lastResponse (exec (.scaleI 0x0035) (ready [])) = some (0, .ok (.f32 0x3E031BD7)) := by decide
theorem test_scaleI_values : scaleCurr 0 = 0 ∧ scaleCurr 7 = 0x3C8A87AE ∧ scaleCurr 9 = 0x3CB21C2A ∧
    scaleCurr 0xFFFF = 0x431E514E := by decide

/-- S9, section 2.3: 9 and 13 differ from a division by ten. -/
theorem test_scaleAH_source : lastResponse (exec (.scaleAH 0x0047) (ready [])) = some (0, .ok (.f32 0x40E33333)) := by decide
theorem test_scaleAH_values : scaleAmpHours 0 = 0 ∧ scaleAmpHours 9 = 0x3F666667 ∧ scaleAmpHours 13 = 0x3FA66667 ∧
    scaleAmpHours 0xFFFF = 0x45CCCC00 := by decide

/-- S4, section 2.4. -/
theorem test_temp_source : lastResponse (exec (.temp 0x1640) (ready [])) = some (0, .ok (.temperature 0x40)) := by decide
theorem test_temp_negative : (temperatureField 0xFF80).toInt = -128 ∧ (temperatureField 0x00E7).toInt = -25 := by decide

/-- S5, S6, section 2.6. -/
theorem test_decState_legal : lastResponse (exec (.decState 8) (ready [])) = some (0, .ok (.operatingState .state8)) := by decide
theorem test_decState_illegal : lastResponse (exec (.decState 0x0100) (ready [])) = some (0, .err (.unknownState 0x0100)) := by
  decide

/-- S7, S8, section 2.7. -/
theorem test_decFault_legal : lastResponse (exec (.decFault 0x0155) (ready [])) = some (0, .ok (.faultSet 0x155)) := by decide
theorem test_decFault_illegal : lastResponse (exec (.decFault 0x0201) (ready [])) = some (0, .err (.unknownFaultBits 0x0201)) := by
  decide

/-- Section 2.7. -/
theorem test_fsUnion : lastResponse (exec (.fsUnion 0x0AA 0x155) (ready [])) = some (0, .ok (.faultSet 0x1FF)) := by decide
theorem test_fsInter : lastResponse (exec (.fsInter 0x103 0x101) (ready [])) = some (0, .ok (.faultSet 0x101)) := by decide
theorem test_fsEq : lastResponse (exec (.fsEq 0x003 0x103) (ready [])) = some (0, .ok (.boolean false)) := by decide

/-- Program P1, request 1. -/
theorem test_decStatus_P1 :
    lastResponse (exec (.decStatus (statusBuf 5 3)) (ready [])) =
      some (0, .ok (.snapshot ⟨0x414DE880, 0x41A5B900, 0x4148D480, 0x3E031BD7, 0x00000000, 23, 64, 0xFF, 0x80, .state5, 0x003⟩)) := by
  decide
/-- Program P1, the variant bad in both words. -/
theorem test_decStatus_stateFirst :
    lastResponse (exec (.decStatus (statusBuf 9 0x0203)) (ready [])) = some (0, .err (.unknownState 0x0009)) := by decide

/-- S9, with section 2.5's non-zero alarm. -/
theorem test_decLogday_record :
    lastResponse (exec (.decLogday (slotBuf 0x2402 0x01AB 0xCDEF 0xDEAD)) (ready [])) =
      some (0, .ok (.logDay (some
        ⟨0x010224, 0xEFCDAB00, 0x4148D480, 0x4160C180, 0x40E33333, 0x402CCCCD, 0x41A5B900⟩))) := by decide
/-- Section 2.5: a sentinel although the low byte of word 1 and word 2 are not zero. -/
theorem test_decLogday_sentinel :
    lastResponse (exec (.decLogday (slotBuf 0x0000 0x00AB 0xCDEF 0)) (ready [])) = some (0, .ok (.logDay none)) := by decide

set_option maxRecDepth 100000 in
/-- As program P2: disorder, both sentinels, a tie that keeps slot order. -/
theorem test_buildLog_order :
    (logCollection logBuf).map (fun r => (r.hourmeter, r.alarmDaily)) =
      [(0x010224, 0x00000000), (0x010925, 0x00000000), (0x010925, 0x01000000)] := by decide

/-- R63: the two constants of the table, another one refused, a field of a slot. -/
theorem test_pseudo_operations :
    expand (.scaleVoltageOrCurrent 0x1079 0x42C80000) = some (.scaleV 0x1079) ∧
    expand (.scaleVoltageOrCurrent 0x0035 0x429E51EC) = some (.scaleI 0x0035) ∧
    expand (.scaleVoltageOrCurrent 0x0035 0x42C80001) = none ∧
    expand (.arrayVoltageMax (slotBuf 0x2402 0x0100 0 0)) = some (.scaleV 0x1A84) := by decide

/-! ## The reader, one move at a time (programs P3, P4) -/

/-- P3 run a, step 1. -/
theorem test_rdStatus_begins :
    readerOf (exec .rdStatus (ready [])) = some (.held 0, .attempting, 0, 1, 0, false) := by decide
/-- P3 run a, step 4: the decoder's response. -/
theorem test_rdStatus_answers :
    lastResponse (step (finished .success .status 1 1 (statusWords 9 3))) = some (7, .err (.unknownState 9)) := by decide
/-- P4: block 7 of a log read exhausts its attempts. -/
theorem test_rdLogged_exhausted :
    lastResponse (step (finished .exhausted .log 7 3 [])) = some (7, .err (.transportError 0x8070)) := by decide
theorem test_rdLogged_waits :
    (match exec .rdLogged (reading .status 0 1 [] []) with | .next s => s.waiters | _ => []) = [⟨0, .log⟩] := by decide
/-- R150: a count of 0 is passed to the transport. -/
theorem test_rdBlock_empty :
    readerOf (step (reading (.block 0xFFFF 0) 0 1 [] [.answer (.ok [])])) = some (.free, .success, 0, 1, 0, false) := by decide
theorem test_rdBlock_answers :
    lastResponse (step (finished .success (.block 0x0008 2) 0 1 [0x1079, 0x1A84])) = some (7, .ok (.words [0x1079, 0x1A84])) := by
  decide

/-- P3 run a, step 2. -/
theorem test_answer_nextBlock :
    readerOf (step (reading .status 0 2 [] [.answer (.ok (List.replicate 22 0))])) =
      some (.held 7, .attempting, 1, 1, 22, false) := by decide
/-- P3 run e: a short answer is a failed attempt. -/
theorem test_answer_short :
    readerOf (step (reading .status 0 1 [] [.answer (.ok (List.replicate 21 0))])) =
      some (.held 7, .attempting, 0, 1, 0, true) := by decide
/-- P3 run c, step 5. -/
theorem test_answer_third_failure :
    readerOf (step (reading .status 1 3 (List.replicate 22 0) [.answer .err])) = some (.free, .exhausted, 1, 3, 0, false) := by decide

/-! ## Witnesses: the hypotheses of each statement can be met -/

theorem witness_EncodeOfDecodeClearsUnusedBits : decode ⟨0x6FF00FE03, []⟩ = .ok (.fsUnion 0x003 0x100) := rfl

theorem witness_DecodingSortsEveryRequest :
    (0xF00000000 : BitVec 36).extractLsb' 32 4 = 0xF ∧
    ((0xA00000000 : BitVec 36).extractLsb' 32 4 ≠ 0xF ∧
      (slotWords 0 0 0 0).length = operandLength ((0xA00000000 : BitVec 36).extractLsb' 32 4).toNat) ∧
    ((0xE00000000 : BitVec 36).extractLsb' 32 4 ≠ 0xF ∧
      (slotWords 0 0 0 0).length ≠ operandLength ((0xE00000000 : BitVec 36).extractLsb' 32 4).toNat) := by decide

theorem witness_StepExecutesDecodedRequest :
    (ready [.request 3 ⟨0x300001640, []⟩, .reader]).agenda = [.request 3 ⟨0x300001640, []⟩, .reader] ∧
    decode ⟨0x300001640, []⟩ = .ok (.temp 0x1640) := ⟨rfl, rfl⟩

theorem witness_PlacedTableWordRunsNext :
    decodeTableWord 36 0xE00160008 = some (.rdBlock 0x0008 22) ∧ decodeTableWord 40 0x000001079 = some (.scaleV 0x1079) := by decide

theorem witness_ReservedOpAnswersIllegalOp :
    (ready [.request 3 ⟨0xFFFFFFFFF, [1]⟩]).agenda = [.request 3 ⟨0xFFFFFFFFF, [1]⟩] ∧
    (0xFFFFFFFFF : BitVec 36).extractLsb' 32 4 = 0xF := by decide

theorem witness_WrongBufferLengthIsRefused :
    (ready [.request 3 ⟨0xC00000000, [1]⟩]).agenda = [.request 3 ⟨0xC00000000, [1]⟩] ∧
    (⟨0xC00000000, [1]⟩ : Request).wellFormed = false := by decide

theorem witness_UnusedCommandBitsAreIgnored :
    (0x0FFFF1079 : BitVec 36) &&& usedMask ((0x0FFFF1079 : BitVec 36).extractLsb' 32 4).toNat =
      (0x000001079 : BitVec 36) &&& usedMask ((0x000001079 : BitVec 36).extractLsb' 32 4).toNat := by decide

/-- An OK response, and two equal errors. -/
theorem witness_ResponsesAreDistinguishable :
    (Response.ok (.boolean true)).status = 0 ∧
    (Response.err (.illegalOp 0xF)).status = (Response.err (.illegalOp 0xF)).status ∧
    (Response.err (.illegalOp 0xF)).info = (Response.err (.illegalOp 0xF)).info := by decide

/-- The largest integer that is converted; the largest finite value times one half, and divided by one. -/
theorem witness_ArithmeticRoundsOnceToNearestEven :
    2 ^ 24 - 1 < 2 ^ 24 ∧
    (isFinite 0x7F7FFFFF = true ∧ isFinite 0x3F000000 = true ∧
      units 0x7F7FFFFF * units 0x3F000000 < 2 ^ 149 * ((2 ^ 25 - 1) * 2 ^ 252)) ∧
    (isFinite 0x3F800000 = true ∧ units 0x3F800000 ≠ 0 ∧
      units 0x7F7FFFFF * 2 ^ 149 < units 0x3F800000 * ((2 ^ 25 - 1) * 2 ^ 252)) := by decide

theorem witness_ScaleResultsAreBoundedAndIncreasing :
    (scaleCurr, (0x431E514E : F32)) ∈ [(scaleVolt, (0x4347FF38 : F32)), (scaleCurr, 0x431E514E), (scaleAmpHours, 0x45CCCC00)] ∧
    (0xFFFF : Word) ≠ 0 ∧ (0xFFFE : Word) < 0xFFFF := ⟨by simp, by decide, by decide⟩

theorem witness_DividingFirstGivesTheSameBits : Config.fsCurr ∈ [Config.fsVolt, Config.fsCurr] := by decide

theorem witness_WidenedTemperatureKeepsItsValue : 8 ≤ 16 := by decide

theorem witness_DecStateAcceptsZeroToEight : (8 : Word).toNat ≤ 8 ∧ 8 < (9 : Word).toNat := by decide

theorem witness_DecFaultAcceptsNineBits : (0x01FF : Word) &&& 0xFE00 = 0 ∧ (0x0200 : Word) &&& 0xFE00 ≠ 0 := by decide

theorem witness_DecStatusReadsElevenFields :
    ((statusBuf 8 0x01FF).words.getD 9 0).toNat ≤ 8 ∧ (statusBuf 8 0x01FF).words.getD 10 0 &&& 0xFE00 = 0 := by decide

theorem witness_DecStatusReportsStateErrorFirst :
    8 < ((statusBuf 9 0x0203).words.getD 9 0).toNat ∧
    (((statusBuf 8 0x0200).words.getD 9 0).toNat ≤ 8 ∧ (statusBuf 8 0x0200).words.getD 10 0 &&& 0xFE00 ≠ 0) := by decide

theorem witness_DecStatusIsAllOrNothing :
    8 < ((statusBuf 9 3).words.getD 9 0).toNat ∧ (statusBuf 8 0x8000).words.getD 10 0 &&& 0xFE00 ≠ 0 := by decide

/-- Two different buffers that agree on offsets 0 to 10. -/
theorem witness_DecStatusIgnoresOffsetsFromEleven : ∃ b b' : Buffer 44, b ≠ b' ∧ ∀ k : Nat, k ≤ 10 → b.words[k]? = b'.words[k]? := by
  refine ⟨⟨List.replicate 11 0 ++ List.replicate 33 0, rfl⟩, ⟨List.replicate 11 0 ++ List.replicate 33 1, rfl⟩, by decide, ?_⟩
  intro k hk
  interval_cases k <;> rfl

/-- The smallest and the largest hourmeter of a record. -/
theorem witness_DecLogdayReassemblesUsedSlots :
    (let w := fun k : Nat => (slotBuf 0x0100 0x0000 0 0).words.getD k 0
     let hours := (w 1).toNat / 256 * 65536 + (w 0).toNat % 256 * 256 + (w 0).toNat / 256
     hours = 1 ∧ hours ≠ 0 ∧ hours ≠ 0xFFFFFF) ∧
    (let w := fun k : Nat => (slotBuf 0xFEFF 0xFF00 0 0).words.getD k 0
     let hours := (w 1).toNat / 256 * 65536 + (w 0).toNat % 256 * 256 + (w 0).toNat / 256
     hours = 0xFFFFFE ∧ hours ≠ 0 ∧ hours ≠ 0xFFFFFF) := by decide

theorem witness_DecLogdaySentinelGivesNoRecord :
    ((slotBuf 0 0x00AB 0xCDEF 0).words.getD 0 0 = 0x0000 ∧ ((slotBuf 0 0x00AB 0xCDEF 0).words.getD 1 0).toNat / 256 = 0x00) ∧
    ((slotBuf 0xFFFF 0xFF00 0 0).words.getD 0 0 = 0xFFFF ∧ ((slotBuf 0xFFFF 0xFF00 0 0).words.getD 1 0).toNat / 256 = 0xFF) := by decide

theorem witness_RecordsHoldTheLiteralAlarm :
    decodeLogDay (slotBuf 0x2402 0x01AB 0xCDEF 0) =
      some ⟨0x010224, 0xEFCDAB00, 0x4148D480, 0x4160C180, 0x40E33333, 0x402CCCCD, 0x41A5B900⟩ := by decide

/-- Two different slots that agree on the words that are read. -/
theorem witness_DecLogdayIgnoresUnreadWords :
    ∃ b b' : Buffer 16, b ≠ b' ∧ ∀ k : Nat, k ≤ 6 ∨ k = 9 → b.words[k]? = b'.words[k]? := by
  refine ⟨slotBuf 0x2402 0x0100 0 1, slotBuf 0x2402 0x0100 0 2, by decide, ?_⟩
  rintro k (hk | rfl)
  · interval_cases k <;> rfl
  · rfl

theorem witness_BuildLogDropsExactlyTheSentinels :
    (⟨List.replicate 512 0x0000, List.length_replicate⟩ : Buffer 512).words = List.replicate 512 0x0000 ∧
    (⟨List.replicate 512 0xFFFF, List.length_replicate⟩ : Buffer 512).words = List.replicate 512 0xFFFF := ⟨rfl, rfl⟩

theorem witness_PureOperationsDependOnOperandsAlone : isPure (.buildLog logBuf) = true ∧ isPure (.scaleV 0) = true := ⟨rfl, rfl⟩

theorem witness_PureOperationsCommute : isPure (.decState 9) = true ∧ isPure (.fsEq 1 2) = true := ⟨rfl, rfl⟩

theorem witness_BlockListsAreTheFixedOnes : 0 < 32 ∧ 31 < 32 := by decide

/-- Nobody waits; another caller waits (entry 8). -/
theorem witness_ReaderOperationTakesTheFreeLock :
    readKindOf (.rdBlock 0x0008 22) = some (.block 0x0008 22) ∧
    ((ready []).conn = .opened ∧ (ready []).lock = .free ∧ (ready []).phase = .idle) ∧
    (let s : State := { ready [] with waiters := [⟨5, .log⟩] }
     s.conn = .opened ∧ s.lock = .free ∧ s.phase = .idle ∧ s.waiters ≠ []) := by decide

/-- Both ways to be busy: the lock is held; a finished read is not answered yet. -/
theorem witness_ReaderOperationWaitsForTheLock :
    readKindOf .rdLogged = some .log ∧
    ((reading .status 0 1 [] []).conn = .opened ∧ (reading .status 0 1 [] []).lock ≠ .free) ∧
    ((finished .success .status 1 1 []).conn = .opened ∧ (finished .success .status 1 1 []).phase ≠ .idle) := by decide

theorem witness_ReaderOperationNeedsTheConnection : readKindOf .rdStatus = some .status ∧ State.reset.conn = .closed := by decide

/-- The four cases: a block that is not the last, the last one, a first failure, a third failure. -/
theorem witness_AnswersDriveTheStateMachine :
    (let s := reading .status 0 1 [] [.answer (.ok (List.replicate 22 0))]
     s.agenda = [.answer (.ok (List.replicate 22 0))] ∧ s.phase = .attempting ∧ s.waiting = false ∧ s.job = some ⟨7, .status⟩ ∧
       ReadKind.status.blocks[s.k]? = some ⟨0x0008, 22⟩ ∧
       (List.replicate 22 (0 : Word)).length = 22 ∧ s.k + 1 < ReadKind.status.blocks.length) ∧
    (let s := reading .log 31 3 (List.replicate 496 0) [.answer (.ok (List.replicate 16 0))]
     s.phase = .attempting ∧ s.waiting = false ∧ s.job = some ⟨7, .log⟩ ∧ ReadKind.log.blocks[s.k]? = some ⟨0x81F0, 16⟩ ∧
       ReadKind.log.blocks.length ≤ s.k + 1) ∧
    (let s := reading .status 1 2 [] [.answer .err]
     s.phase = .attempting ∧ s.waiting = false ∧ s.job = some ⟨7, .status⟩ ∧ ReadKind.status.blocks[s.k]? = some ⟨0x001E, 22⟩ ∧
       s.attempt < 3) ∧
    (reading .status 1 3 [] [.answer .err]).attempt = 3 := by decide

theorem witness_ReaderActionsEndWaitsAndReads :
    (let s : State := { reading .status 0 1 [] [.reader] with waiting := true }
     s.agenda = [.reader] ∧ s.job = some ⟨7, .status⟩ ∧ s.phase = .attempting ∧ s.waiting = true) ∧
    (let s := finished .success (.block 0x0008 1) 0 1 [5]
     s.job = some ⟨7, .block 0x0008 1⟩ ∧ s.phase = .success ∧ readResponse (.block 0x0008 1) s.asm = some (.ok (.words [5]))) ∧
    (let s := finished .exhausted .status 1 3 []
     s.phase = .exhausted ∧ ReadKind.status.blocks[s.k]? = some ⟨0x001E, 22⟩) := by decide

theorem witness_BlockReadTriesThreeTimes :
    (∀ x ∈ [Answer.err, .ok [], .ok [1, 2]], ∀ vs, x = .ok vs → vs.length ≠ 1) ∧ [(5 : Word)].length = 1 := by
  constructor
  · intro x hx vs h
    simp only [List.mem_cons, List.not_mem_nil, or_false] at hx
    rcases hx with rfl | rfl | rfl <;> simp_all
    all_goals (subst h; decide)
  · rfl

/-- A success on the third attempt, and an exhausted second block. -/
theorem witness_LogicalReadAttemptsAreBounded :
    logicalRead [⟨8, 1⟩] [.err, .err, .ok [5]] = some (.ok [5], 2, []) ∧
    logicalRead [⟨8, 1⟩, ⟨9, 1⟩] [.ok [5], .err, .err, .err, .err] = some (.error 9, 2, [.err]) := ⟨rfl, rfl⟩

theorem witness_AnsweredLogicalReadsEnd : 3 * [(⟨8, 1⟩ : Block)].length ≤ [Answer.err, .err, .err].length := by decide

/-- A success of RD_BLOCK after a failed attempt; RD_STATUS exhausted on its second block while another caller waits. -/
theorem witness_ReaderRefinesLogicalRead :
    (let s := ready (answersThenReader [.err, .ok [5]])
     readKindOf (.rdBlock 8 1) = some (.block 8 1) ∧ s.conn = .opened ∧ s.lock = .free ∧ s.phase = .idle ∧
       s.agenda = answersThenReader [.err, .ok [5]] ∧
       logicalRead (ReadKind.block 8 1).blocks [.err, .ok [5]] = some (.ok [5], 1, [])) ∧
    (let answers := [.ok (List.replicate 22 0), .err, .err, .err]
     let s : State := { ready (answersThenReader answers) with waiters := [⟨5, .log⟩] }
     readKindOf .rdStatus = some .status ∧ s.conn = .opened ∧ s.lock = .free ∧ s.phase = .idle ∧
       s.agenda = answersThenReader answers ∧
       logicalRead ReadKind.status.blocks answers = some (.error 0x001E, 2, [])) :=
  ⟨⟨rfl, rfl, rfl, rfl, rfl, rfl⟩, rfl, rfl, rfl, rfl, rfl, rfl⟩

theorem witness_StatusReadDecodesTheDeviceRegisters (reg : Nat → Word) :
    ∃ s : State, s.conn = .opened ∧ s.lock = .free ∧ s.phase = .idle ∧ s.agenda = answersThenReader
      [.ok ((List.range 22).map fun j => reg (0x0008 + j)), .ok ((List.range 22).map fun j => reg (0x001E + j))] :=
  ⟨ready _, rfl, rfl, rfl, rfl⟩

theorem witness_LogReadDecodesTheDeviceRegisters (reg : Nat → Word) :
    ∃ s : State, s.conn = .opened ∧ s.lock = .free ∧ s.phase = .idle ∧ s.agenda = answersThenReader
      ((List.range 32).map fun i => .ok ((List.range 16).map fun j => reg (0x8000 + 16 * i + j))) :=
  ⟨ready _, rfl, rfl, rfl, rfl⟩

theorem witness_AnyWaiterMayAcquireTheFreeLock :
    (let s : State := { ready [.acquire 2] with waiters := [⟨1, .log⟩, ⟨2, .status⟩] }
     s.agenda = [.acquire 2] ∧ s.lock = .free ∧ s.phase = .idle ∧ ∃ j ∈ s.waiters, j.caller = 2) ∧
    (reading .status 0 1 [] [.acquire 2]).lock ≠ .free := by decide

theorem witness_ConnectOpensForTheLifetime :
    (State.resetWith [.connect]).agenda = [.connect] ∧ (ready []).conn = .opened ∧ step (ready []) = .next (ready []) := ⟨rfl, rfl, rfl⟩

/-- Unanswered, and waiting: a request and an answer go by. -/
theorem witness_ReaderStandsStillUntilAnswered :
    (∃ t, step (reading .status 0 1 [] [.request 3 ⟨0x300001640, []⟩]) = .next t) ∧
    (reading .status 0 1 [] [.request 3 ⟨0x300001640, []⟩]).waiting = false ∧
    (∃ t, step { reading .status 0 1 [] [.answer .err] with waiting := true } = .next t) ∧
    (Move.answer .err ≠ .reader) := ⟨⟨_, rfl⟩, rfl, ⟨_, rfl⟩, by decide⟩

theorem consistent_reading : Consistent (reading .status 1 3 (List.replicate 22 0) [.answer .err]) :=
  ⟨⟨⟨7, .status⟩, rfl, rfl, by decide, by decide, by decide, by decide, rfl⟩, by decide⟩

theorem witness_LockIsHeldForTheWholeRead :
    Consistent (reading .status 1 3 (List.replicate 22 0) [.answer .err]) ∧
    (∃ t, step (reading .status 1 3 (List.replicate 22 0) [.answer .err]) = .next t) ∧
    (reading .status 1 3 (List.replicate 22 0) [.answer .err]).lock = .held 7 := ⟨consistent_reading, ⟨_, rfl⟩, rfl⟩

theorem witness_TransportErrorLeavesTheReaderIdle :
    Consistent (finished .exhausted .status 1 3 []) ∧
    ∃ t, step (finished .exhausted .status 1 3 []) = .next t ∧
      t.responses = (finished .exhausted .status 1 3 []).responses ++ [(7, .err (.transportError 0x001E))] :=
  ⟨⟨⟨⟨7, .status⟩, rfl, rfl, by decide, rfl, rfl, rfl⟩, by decide⟩, ⟨_, rfl, rfl⟩⟩

theorem witness_ResponsesAreNeverWithdrawn : ∃ t, step (finished .success (.block 8 1) 0 1 [5]) = .next t := ⟨_, rfl⟩

theorem witness_EveryStepKeepsTheReaderConsistent :
    Consistent (reading .status 1 3 (List.replicate 22 0) [.answer .err]) ∧
    ∃ t, step (reading .status 1 3 (List.replicate 22 0) [.answer .err]) = .next t ∧ t.phase = .exhausted :=
  ⟨consistent_reading, ⟨_, rfl, rfl⟩⟩

theorem witness_ConsistentStatesNeverFault : Consistent (reading .status 1 3 (List.replicate 22 0) [.answer .err]) :=
  consistent_reading

theorem witness_AddressMapIsCoveredByTheFixedReads : 0 < Config.addressMap.length ∧ 5 < Config.addressMap.length := by decide

end Sys2Proof.Tests
end

/-! PROOFS. The byte reversal bit by bit and as a number, and the joining of two words (00_scope.md R8; 30_encoding.md R64). -/

namespace Sys2Proof.Machine

/-! ## The byte reversal -/

/-- Byte k of the result is byte 3 - k of the value, each with its bits in order (R8). -/
theorem bswap32_getLsbD (v : BitVec 32) {i : Nat} (hi : i < 32) :
    (bswap32 v).getLsbD i = v.getLsbD (8 * (3 - i / 8) + i % 8) := by
  simp only [bswap32, BitVec.getLsbD_append, BitVec.getLsbD_extractLsb']
  interval_cases i <;> simp

/-- Two reversals of the byte's position cancel, and the bit's position in its byte never changes. -/
@[simp] theorem bswap32_bswap32 (v : BitVec 32) : bswap32 (bswap32 v) = v := by
  apply BitVec.eq_of_getLsbD_eq
  intro i hi
  rw [bswap32_getLsbD _ hi, bswap32_getLsbD _ (by omega)]
  congr 1
  omega

theorem bswap32_toNat (v : BitVec 32) :
    (bswap32 v).toNat = v.toNat % 256 * 16777216 + v.toNat / 256 % 256 * 65536 + v.toNat / 65536 % 256 * 256 +
      v.toNat / 16777216 := by
  have hv : v.toNat < 4294967296 := v.isLt
  rw [bswap32, toNat_append_byte, toNat_append_byte, toNat_append_byte]
  simp only [BitVec.extractLsb'_toNat, Nat.shiftRight_eq_div_pow, Nat.reducePow, Nat.div_one]
  omega

/-! ## The joined words -/

/-- The source's shift and OR (R64) is the two words side by side. -/
theorem joinWords_eq_append (h l : Word) : joinWords h l = h ++ l := by
  rw [joinWords, zext32, zext32, ← BitVec.setWidth_append_eq_shiftLeft_setWidth_or]
  exact BitVec.setWidth_eq _

theorem joinWords_toNat (h l : Word) : (joinWords h l).toNat = h.toNat * 65536 + l.toNat := by
  have hl : l.toNat < 2 ^ 16 := l.isLt
  rw [joinWords_eq_append, BitVec.toNat_append, ← Nat.shiftLeft_add_eq_or_of_lt hl, Nat.shiftLeft_eq]

/-- Settles O31: the involution by positions of bits, the two values by appending bytes and words as numbers. -/
theorem byteReversalIsAnInvolution : Obligations.ByteReversalIsAnInvolution :=
  ⟨bswap32_bswap32, bswap32_toNat, joinWords_toNat⟩

end Sys2Proof.Machine

/-! PROOFS. The reader's invariant phase by phase, what each of the reader's transitions makes of it, and so that every step keeps it
and none from a state that meets it faults (10_state.md R22, R24; 46_block_reader.md R141-R147; 70_reset_and_hazards.md R191). -/

namespace Sys2Proof.Machine

variable {s : State} {j : Job}

/-! ## The invariant in each phase of R141 -/

theorem readerConsistent_attempting_iff (h : s.phase = .attempting) :
    ReaderConsistent s ↔ ∃ j, s.job = some j ∧ s.lock = .held j.caller ∧ s.k < j.kind.blocks.length ∧ 1 ≤ s.attempt ∧
      s.attempt ≤ 3 ∧ (s.waiting = true → s.attempt < 3) ∧ s.asm.length = wordsOfBlocks j.kind.blocks s.k := by
  rw [ReaderConsistent, h]

theorem readerConsistent_success_iff (h : s.phase = .success) :
    ReaderConsistent s ↔ ∃ j, s.job = some j ∧ s.lock = .free ∧ s.k + 1 = j.kind.blocks.length ∧ 1 ≤ s.attempt ∧
      s.attempt ≤ 3 ∧ s.waiting = false ∧ s.asm.length = wordsOfBlocks j.kind.blocks j.kind.blocks.length := by
  rw [ReaderConsistent, h]

theorem readerConsistent_exhausted_iff (h : s.phase = .exhausted) :
    ReaderConsistent s ↔ ∃ j, s.job = some j ∧ s.lock = .free ∧ s.k < j.kind.blocks.length ∧ s.attempt = 3 ∧
      s.waiting = false ∧ s.asm = [] := by
  rw [ReaderConsistent, h]

/-! ## The reader's transitions -/

/-- The words of a successful attempt are those of block `k`; after the last block the buffer is that of the whole list. -/
theorem readerConsistent_blockRead {b : Block} {ws : List Word} (hs : ReaderConsistent s) (attempting : s.phase = .attempting)
    (notWaiting : s.waiting = false) (job : s.job = some j) (block : j.kind.blocks[s.k]? = some b)
    (length : ws.length = b.count) : ReaderConsistent (blockRead j ws s) := by
  obtain ⟨j', hj', hlock, hk, h1, h3, -, hasm⟩ := (readerConsistent_attempting_iff attempting).1 hs
  obtain rfl : j = j' := Option.some.inj (job.symm.trans hj')
  have hwords : (s.asm ++ ws).length = wordsOfBlocks j.kind.blocks (s.k + 1) := by
    rw [List.length_append, hasm, length, wordsOfBlocks_succ block]
  unfold blockRead
  split
  case isTrue hmore =>
    exact (readerConsistent_attempting_iff (s := s.nextBlock ws) attempting).2
      ⟨j, job, hlock, hmore, Nat.le_refl 1, by simp, by simp [notWaiting], hwords⟩
  case isFalse hlast =>
    have hend : s.k + 1 = j.kind.blocks.length := by omega
    exact (readerConsistent_success_iff rfl).2 ⟨j, job, rfl, hend, h1, h3, notWaiting, hend ▸ hwords⟩

/-- A failed attempt leaves a wait when another attempt is left, and else ends the read. -/
theorem readerConsistent_attemptFailed (hs : ReaderConsistent s) (attempting : s.phase = .attempting)
    (notWaiting : s.waiting = false) : ReaderConsistent (attemptFailed s) := by
  obtain ⟨j, hj, hlock, hk, h1, h3, -, hasm⟩ := (readerConsistent_attempting_iff attempting).1 hs
  unfold attemptFailed
  split
  case isTrue hleft =>
    exact (readerConsistent_attempting_iff (s := s.beginWait) attempting).2 ⟨j, hj, hlock, hk, h1, h3, fun _ => hleft, hasm⟩
  case isFalse hthird =>
    exact (readerConsistent_exhausted_iff rfl).2 ⟨j, hj, rfl, hk, Nat.le_antisymm h3 (Nat.le_of_not_lt hthird), notWaiting, rfl⟩

theorem readerConsistent_endWait (hs : ReaderConsistent s) (attempting : s.phase = .attempting) (waiting : s.waiting = true) :
    ReaderConsistent s.endWait := by
  obtain ⟨j, hj, hlock, hk, -, -, hwait, hasm⟩ := (readerConsistent_attempting_iff attempting).1 hs
  exact (readerConsistent_attempting_iff (s := s.endWait) attempting).2 ⟨j, hj, hlock, hk, by simp, hwait waiting, by simp, hasm⟩

/-- After its end a read holds nothing; its lock was released one step before (R141, R147). -/
theorem readerConsistent_endRead (hs : ReaderConsistent s) (ended : s.phase = .success ∨ s.phase = .exhausted) {c : Caller}
    {resp : Response} : ReaderConsistent (s.endRead.answerTo c resp) := by
  have hfree : s.lock = .free := by
    obtain h | h := ended
    · obtain ⟨_, -, hfree, -⟩ := (readerConsistent_success_iff h).1 hs
      exact hfree
    · obtain ⟨_, -, hfree, -⟩ := (readerConsistent_exhausted_iff h).1 hs
      exact hfree
  exact ⟨hfree, rfl, rfl, rfl, rfl, rfl⟩

/-! ## The connection -/

@[simp] theorem blockRead_conn (j : Job) (ws : List Word) (s : State) : (blockRead j ws s).conn = s.conn := by
  unfold blockRead
  split <;> rfl

@[simp] theorem attemptFailed_conn (s : State) : (attemptFailed s).conn = s.conn := by
  unfold attemptFailed
  split <;> rfl

theorem consistent_of_opened (hs : ReaderConsistent s) (opened : s.conn = .opened) : Consistent s :=
  ⟨hs, by simp [opened]⟩

theorem conn_eq_opened_of_not_idle (hs : Consistent s) (h : s.phase ≠ .idle) : s.conn = .opened := by
  cases hc : s.conn with
  | opened => rfl
  | closed => exact absurd (hs.boot hc).1 h

theorem conn_eq_opened_of_mem_waiters (hs : Consistent s) (h : j ∈ s.waiters) : s.conn = .opened := by
  cases hc : s.conn with
  | opened => rfl
  | closed => exact absurd ((hs.boot hc).2 ▸ h) List.not_mem_nil

/-! ## Every step -/

/-- Each effect of a move keeps the invariant: the reads that begin, go on and end by the transitions above, and the rest leave the
reader as it is. -/
theorem consistent_of_stepEffect {t : State} {m : Move} {rest : List Move} (hs : Consistent s)
    (h : StepEffect s { s with agenda := rest } m t) : Consistent t := by
  have reader : ReaderConsistent ({ s with agenda := rest } : State) := hs.reader
  have opened : s.phase ≠ .idle → s.conn = .opened := conn_eq_opened_of_not_idle hs
  cases h with
  | nothing | answered => exact ⟨hs.reader, hs.boot⟩
  | started _ _ _ conn => exact consistent_beginRead _ conn
  | queued _ _ _ conn => exact consistent_of_opened hs.reader conn
  | connected => exact consistent_of_opened hs.reader rfl
  | acquired j waits =>
    have conn := conn_eq_opened_of_mem_waiters hs waits
    exact consistent_beginRead j conn
  | attemptOk a j b ws attempting notWaiting job block words =>
    refine consistent_of_opened ?_ ((blockRead_conn _ _ _).trans (opened (by simp [attempting])))
    exact readerConsistent_blockRead hs.reader attempting notWaiting job block (wordsOf_eq_some_iff.1 words).2
  | attemptErr a j b attempting notWaiting =>
    refine consistent_of_opened ?_ ((attemptFailed_conn _).trans (opened (by simp [attempting])))
    exact readerConsistent_attemptFailed hs.reader attempting notWaiting
  | waitEnded j attempting waiting =>
    refine consistent_of_opened ?_ (opened (by simp [attempting]))
    exact readerConsistent_endWait hs.reader attempting waiting
  | readDone j resp success =>
    refine consistent_of_opened ?_ (opened (by simp [success]))
    exact readerConsistent_endRead reader (.inl success)
  | readFailed j b exhausted =>
    refine consistent_of_opened ?_ (opened (by simp [exhausted]))
    exact readerConsistent_endRead reader (.inr exhausted)

/-- Settles O57, by the inversion of `step`: it stutters, or its move has one of the effects that keep the invariant. -/
theorem everyStepKeepsTheReaderConsistent : Obligations.EveryStepKeepsTheReaderConsistent := by
  intro s t hs h
  obtain ⟨-, rfl⟩ | ⟨m, rest, -, heff⟩ := step_effect h
  · exact hs
  · exact consistent_of_stepEffect hs heff

/-! ## No fault -/

/-- A buffer of the length of its read is answered (R148-R150). -/
theorem exists_readResponse {kind : ReadKind} {asm : List Word} (h : asm.length = wordsOfBlocks kind.blocks kind.blocks.length) :
    ∃ resp, readResponse kind asm = some resp := by
  cases kind with
  | status => exact ⟨_, by rw [readResponse, asBuffer_of_length (h.trans status_words), Option.map_some]⟩
  | log => exact ⟨_, by rw [readResponse, asBuffer_of_length (h.trans log_words), Option.map_some]⟩
  | block addr count => exact ⟨_, rfl⟩

/-- A consistent reader that is not Idle has a job and a block, and in Success a buffer that its decoder answers. -/
theorem job_of_not_idle (hs : ReaderConsistent s) (h : s.phase ≠ .idle) :
    ∃ j, s.job = some j ∧ s.k < j.kind.blocks.length ∧ (s.phase = .success → ∃ resp, readResponse j.kind s.asm = some resp) := by
  cases hp : s.phase with
  | idle => exact absurd hp h
  | attempting =>
    obtain ⟨j, hj, -, hk, -⟩ := (readerConsistent_attempting_iff hp).1 hs
    exact ⟨j, hj, hk, nofun⟩
  | success =>
    obtain ⟨j, hj, -, hk, -, -, -, hasm⟩ := (readerConsistent_success_iff hp).1 hs
    exact ⟨j, hj, by omega, fun _ => exists_readResponse hasm⟩
  | exhausted =>
    obtain ⟨j, hj, -, hk, -⟩ := (readerConsistent_exhausted_iff hp).1 hs
    exact ⟨j, hj, hk, nofun⟩

/-- Settles O58: a fault would need a reader without its job, its block or a buffer of the right length. -/
theorem consistentStatesNeverFault : Obligations.ConsistentStatesNeverFault := by
  intro s r hs h
  obtain ⟨hnotIdle, hcontra⟩ := step_fault h
  obtain ⟨j, hj, hk, hresp⟩ := job_of_not_idle hs.reader hnotIdle
  obtain hnone | ⟨j', hj', ⟨-, hblock⟩ | ⟨hsuccess, hnone⟩⟩ := hcontra
  · simp [hj] at hnone
  · obtain rfl : j = j' := Option.some.inj (hj.symm.trans hj')
    exact absurd (List.getElem?_eq_none_iff.1 hblock) (Nat.not_le_of_lt hk)
  · obtain rfl : j = j' := Option.some.inj (hj.symm.trans hj')
    obtain ⟨resp, hsome⟩ := hresp hsuccess
    simp [hsome] at hnone

/-! ## Reset -/

/-- Settles O55: the fields of the reset state as they are defined. -/
theorem resetClosesFreesAndEmpties : Obligations.ResetClosesFreesAndEmpties :=
  ⟨rfl, rfl, rfl, rfl, rfl, rfl, rfl, rfl⟩

/-- Settles O56: the reader is Idle at its idle values, and nobody waits. -/
theorem resetIsConsistent : Obligations.ResetIsConsistent :=
  ⟨⟨rfl, rfl, rfl, rfl, rfl, rfl⟩, fun _ => ⟨rfl, rfl⟩⟩

end Sys2Proof.Machine

/-! PROOFS. The operations of the units and sequencers (10_state.md R10). -/

namespace Sys2Proof.Machine

/-- The pure operations are those that ask for no logical read. -/
theorem isPure_iff (i : Instr) : isPure i = true ↔ readKindOf i = none := by
  cases i <;> simp [isPure, readKindOf]

/-- Settles O34: the response is `pureResponse`, a function of the instruction alone. -/
theorem pureOperationsDependOnOperandsAlone : Obligations.PureOperationsDependOnOperandsAlone := by
  intro i hi
  obtain ⟨resp, hresp, -⟩ | ⟨kind, hkind, -⟩ := pureResponse_or_readKind i
  · exact ⟨resp, exec_of_pureResponse hresp⟩
  · simp [(isPure_iff i).1 hi] at hkind

end Sys2Proof.Machine

/-! PROOFS. A logical read whose blocks are all answered at once, and such a read answered with the device's registers (10_state.md
R14, R16; 46_block_reader.md R142, R148, R149). -/

namespace Sys2Proof.Machine

variable {s : State} {j : Job} {rest : List Move}

/-! ## One move of the reader, by its premises -/

theorem step_answer_ok {b : Block} {ws : List Word} (agenda : s.agenda = .answer (.ok ws) :: rest)
    (attempting : s.phase = .attempting) (notWaiting : s.waiting = false) (job : s.job = some j)
    (block : j.kind.blocks[s.k]? = some b) (length : ws.length = b.count) :
    step s = .next
      (blockRead j ws (({ s with agenda := rest } : State).record (.memRead j.caller b.addr b.count (.ok ws)))) := by
  have hwords : (Answer.ok ws).wordsOf b.count = some ws := wordsOf_eq_some_iff.2 ⟨rfl, length⟩
  simp [step_cons agenda, makeMove, transportAnswers, attempting, notWaiting, job, block, hwords]

theorem step_reader_attempting (agenda : s.agenda = .reader :: rest) (attempting : s.phase = .attempting)
    (notWaiting : s.waiting = false) : step s = .next { s with agenda := rest } := by
  simp [step_cons agenda, makeMove, readerActs, attempting, notWaiting]

theorem step_reader_success {resp : Response} (agenda : s.agenda = .reader :: rest) (success : s.phase = .success)
    (job : s.job = some j) (decoded : readResponse j.kind s.asm = some resp) :
    step s = .next (({ s with agenda := rest } : State).endRead.answerTo j.caller resp) := by
  simp [step_cons agenda, makeMove, readerActs, success, job, decoded]

/-! ## A read answered at once -/

/-- The state after the last move of a read: `c` is answered `resp`, the lock is free, the reader is at its idle values, and `h` has
come to the history. -/
def State.afterRead (s : State) (c : Caller) (resp : Response) (h : List BusEvent) : State :=
  ({ s with agenda := [], lock := .free, history := s.history ++ h } : State).endRead.answerTo c resp

/-- The state after `ws` for block `k`, when there is a next block, with `rest` to come. -/
def State.blockAnswered (s : State) (c : Caller) (b : Block) (ws : List Word) (rest : List Move) : State :=
  (({ s with agenda := rest } : State).record (.memRead c b.addr b.count (.ok ws))).nextBlock ws

/-- What a read leaves does not depend on the block it has reached, but for the history. -/
theorem State.afterRead_blockAnswered (s : State) (b : Block) (ws : List Word) (c : Caller) (resp : Response) (h : List BusEvent) :
    (s.blockAnswered c b ws rest).afterRead c resp h = s.afterRead c resp (.memRead c b.addr b.count (.ok ws) :: h) := by
  simp [State.afterRead, State.blockAnswered, State.record, State.nextBlock, State.endRead, State.answerTo]

/-- Two moves for a block that is not the last: its words come, and the reader has no action of its own. -/
theorem runFor_blockAnswered {b : Block} {ws : List Word} (attempting : s.phase = .attempting) (notWaiting : s.waiting = false)
    (job : s.job = some j) (block : j.kind.blocks[s.k]? = some b) (length : ws.length = b.count)
    (agenda : s.agenda = .answer (.ok ws) :: .reader :: rest) (hmore : s.k + 1 < j.kind.blocks.length) (n : Nat) :
    runFor (n + 2) s = runFor n (s.blockAnswered j.caller b ws rest) := by
  have answered := (step_answer_ok agenda attempting notWaiting job block length).trans (congrArg _ (if_pos hmore))
  exact (runFor_succ_of_next answered).trans (runFor_succ_of_next (step_reader_attempting rfl attempting notWaiting))

/-- The same two moves for the last block: the read is over and answered. -/
theorem runFor_lastBlockAnswered {b : Block} {ws : List Word} {resp : Response} (attempting : s.phase = .attempting)
    (notWaiting : s.waiting = false) (job : s.job = some j) (block : j.kind.blocks[s.k]? = some b) (length : ws.length = b.count)
    (agenda : s.agenda = [.answer (.ok ws), .reader]) (hlast : ¬ s.k + 1 < j.kind.blocks.length)
    (decoded : readResponse j.kind (s.asm ++ ws) = some resp) :
    runFor 2 s = .next (s.afterRead j.caller resp [.memRead j.caller b.addr b.count (.ok ws)]) := by
  have answered := (step_answer_ok agenda attempting notWaiting job block length).trans (congrArg _ (if_neg hlast))
  exact (runFor_succ_of_next answered).trans (runFor_succ_of_next (step_reader_success rfl rfl job decoded))

/-- From block `k` on, when every block left is answered with as many words as it asks for, the read ends in two moves a block, with
the response of all its words. By induction on the answers: the last ends the read, each other leads to the next block. -/
theorem runFor_blocksAnswered {resp : Response} (answers : List (List Word)) (s : State) (attempting : s.phase = .attempting)
    (notWaiting : s.waiting = false) (job : s.job = some j) (hk : s.k < j.kind.blocks.length)
    (agenda : s.agenda = answersThenReader (answers.map .ok))
    (lengths : answers.map List.length = (j.kind.blocks.drop s.k).map Block.count)
    (decoded : readResponse j.kind (s.asm ++ answers.flatten) = some resp) :
    ∃ h, runFor (2 * answers.length) s = .next (s.afterRead j.caller resp h) := by
  rw [List.drop_eq_getElem_cons hk] at lengths
  induction answers generalizing s with
  | nil => cases lengths
  | cons ws more ih =>
    obtain ⟨length, lengths⟩ := List.cons.inj lengths
    have block := List.getElem?_eq_getElem hk
    by_cases hmore : s.k + 1 < j.kind.blocks.length
    · rw [List.drop_eq_getElem_cons hmore] at lengths
      obtain ⟨h, hrun⟩ := ih (s.blockAnswered j.caller _ ws _) attempting notWaiting job hmore rfl lengths
        (by simpa [State.blockAnswered] using decoded)
      rw [State.afterRead_blockAnswered] at hrun
      exact ⟨_, (runFor_blockAnswered attempting notWaiting job block length agenda hmore _).trans hrun⟩
    · obtain rfl : more = [] := by
        simpa [List.drop_of_length_le (Nat.le_of_not_lt hmore)] using lengths
      exact ⟨_, runFor_lastBlockAnswered attempting notWaiting job block length agenda hmore (by simpa using decoded)⟩

/-! ## The device's registers -/

/-- The contents of `count` registers from `base` on. -/
def deviceWords (reg : Nat → Word) (base count : Nat) : List Word := (List.range count).map fun i => reg (base + i)

@[simp] theorem length_deviceWords (reg : Nat → Word) (base count : Nat) : (deviceWords reg base count).length = count := by
  simp [deviceWords]

theorem deviceWords_add (reg : Nat → Word) (base m n : Nat) :
    deviceWords reg base (m + n) = deviceWords reg base m ++ deviceWords reg (base + m) n := by
  simp [deviceWords, List.range_add, Nat.add_assoc, Function.comp_def]

/-- The contents of `n` blocks of `m` registers each, the first at `base`. -/
def deviceBlocks (reg : Nat → Word) (base m n : Nat) : List (List Word) :=
  (List.range n).map fun i => deviceWords reg (base + m * i) m

/-- Blocks that follow one another hold the registers from `base` on. -/
theorem flatten_deviceBlocks (reg : Nat → Word) (base m n : Nat) :
    (deviceBlocks reg base m n).flatten = deviceWords reg base (m * n) := by
  induction n with
  | zero => rfl
  | succ n ih =>
    rw [deviceBlocks, List.range_succ, List.map_append, List.flatten_append, ← deviceBlocks, ih, Nat.mul_succ, deviceWords_add]
    simp

@[simp] theorem length_deviceBlocks (reg : Nat → Word) (base m n : Nat) : (deviceBlocks reg base m n).length = n := by
  simp [deviceBlocks]

theorem map_length_deviceBlocks (reg : Nat → Word) (base m n : Nat) :
    (deviceBlocks reg base m n).map List.length = List.replicate n m := by
  simp [deviceBlocks, List.map_const', Function.comp_def]

/-- A reader operation whose `n` blocks of `m` words are answered at once with the registers from `base` on is answered with the
response of those `m * n` registers. -/
theorem exec_read_deviceBlocks {i : Instr} {kind : ReadKind} (s : State) (reg : Nat → Word) (base m n : Nat)
    (reads : readKindOf i = some kind) (counts : kind.blocks.map Block.count = List.replicate n m)
    (opened : s.conn = .opened) (free : s.lock = .free) (idle : s.phase = .idle)
    (agenda : s.agenda = answersThenReader ((deviceBlocks reg base m n).map .ok)) :
    ∃ (t₀ t : State) (resp : Response),
      exec i s = .next t₀ ∧ runFor (2 * n) t₀ = .next t ∧ readResponse kind (deviceWords reg base (m * n)) = some resp ∧
      t.responses = s.responses ++ [(s.caller, resp)] ∧ t.lock = .free ∧ t.phase = .idle ∧ t.waiters = s.waiters := by
  have hstart : exec i s = .next (s.beginRead ⟨s.caller, kind⟩) := by
    rw [exec_of_readKindOf reads, startRead_eq, if_neg (by simp [opened]), if_pos ⟨free, idle⟩]
  have hwords : m * n = wordsOfBlocks kind.blocks kind.blocks.length := by
    rw [wordsOfBlocks, List.take_length, counts, List.sum_replicate_nat, Nat.mul_comm]
  obtain ⟨resp, hresp⟩ := exists_readResponse (kind := kind) ((length_deviceWords reg base (m * n)).trans hwords)
  obtain ⟨h, hrun⟩ := runFor_blocksAnswered (j := ⟨s.caller, kind⟩) _ (s.beginRead _) rfl rfl rfl (blocks_length_pos kind) agenda
    ((map_length_deviceBlocks reg base m n).trans counts.symm) ((flatten_deviceBlocks reg base m n).symm ▸ hresp)
  rw [length_deviceBlocks] at hrun
  exact ⟨_, _, resp, hstart, hrun, hresp, rfl, rfl, rfl, rfl⟩

/-- Settles O47: the two blocks of RD_STATUS (R145) are 22 registers each, the second from `0x0008 + 22` on. -/
theorem statusReadDecodesTheDeviceRegisters : Obligations.StatusReadDecodesTheDeviceRegisters := by
  intro s reg opened free idle agenda
  exact exec_read_deviceBlocks s reg 0x0008 22 2 rfl rfl opened free idle agenda

/-- Settles O48: the 32 blocks of RD_LOGGED (R145) are 16 registers each, one after the other. -/
theorem logReadDecodesTheDeviceRegisters : Obligations.LogReadDecodesTheDeviceRegisters := by
  intro s reg opened free idle agenda
  exact exec_read_deviceBlocks s reg 0x8000 16 32 rfl rfl opened free idle (by rw [deviceBlocks, List.map_map]; exact agenda)

end Sys2Proof.Machine

/-! PROOFS. The one lock: who waits for it, who takes it, and that its holder keeps it until the read ends; that no run from reset
faults; and the address map beside the block lists of the fixed reads (20_memory.md R25, R29, R37, R38; 46_block_reader.md R141, R145,
R151; 70_reset_and_hazards.md R196). -/

namespace Sys2Proof.Machine

variable {s t : State} {j : Job} {m : Move} {rest : List Move}

/-! ## Waiting for the lock and taking it -/

/-- Settles O38: a lock that is held, or a reader that is not Idle, leaves `startRead` only the queue. -/
theorem readerOperationWaitsForTheLock : Obligations.ReaderOperationWaitsForTheLock := by
  intro i kind s reads opened busy
  have hbusy : ¬(s.lock = .free ∧ s.phase = .idle) := fun ⟨free, idle⟩ => busy.elim (· free) (· idle)
  rw [exec_of_readKindOf reads, startRead_eq, if_neg (by simp [opened]), if_neg hbusy]
  rfl

/-- The caller's first entry is the one that `acquireLock` takes (entry 17). -/
theorem acquireLock_of_waits {c : Caller} (free : s.lock = .free) (idle : s.phase = .idle)
    (waits : ∃ j ∈ s.waiters, j.caller = c) :
    ∃ j ∈ s.waiters, j.caller = c ∧
      acquireLock c s = .next (({ s with waiters := s.waiters.erase j } : State).beginRead j) := by
  have hcan : s.canAcquire = true := (canAcquire_iff s).2 ⟨free, idle⟩
  obtain ⟨j, hfind⟩ := Option.isSome_iff_exists.1 (List.find?_isSome (p := fun j : Job => j.caller == c).2 (by simpa using waits))
  have hcaller : j.caller = c := by simpa using List.find?_some hfind
  exact ⟨j, List.mem_of_find?_eq_some hfind, hcaller, by simp [acquireLock, hfind, hcan]⟩

theorem acquireLock_of_not_free (c : Caller) (held : s.lock ≠ .free) : acquireLock c s = .next s :=
  (acquireLock_cases c s).resolve_left fun ⟨_, _, _, free, _⟩ => held free

/-- Settles O49: the entry taken splits the waiters into those before it and those after it. -/
theorem anyWaiterMayAcquireTheFreeLock : Obligations.AnyWaiterMayAcquireTheFreeLock := by
  intro s c rest agenda
  rw [step_cons agenda, makeMove]
  refine ⟨fun free idle waits => ?_, fun held => acquireLock_of_not_free c held⟩
  obtain ⟨j, hmem, rfl, hacquire⟩ := acquireLock_of_waits (s := { s with agenda := rest }) free idle waits
  obtain ⟨before, after, -, hwaiters, herase⟩ := List.exists_erase_eq hmem
  refine ⟨j, before, after, rfl, hwaiters, ?_⟩
  rw [hacquire, herase]
  rfl

/-! ## Holding the lock -/

@[simp] theorem blockRead_history (j : Job) (ws : List Word) (s : State) : (blockRead j ws s).history = s.history := by
  unfold blockRead
  split <;> rfl

@[simp] theorem attemptFailed_history (s : State) : (attemptFailed s).history = s.history := by
  unfold attemptFailed
  split <;> rfl

theorem blockRead_lock (j : Job) (ws : List Word) (s : State) :
    (blockRead j ws s).lock = s.lock ∨ (blockRead j ws s).lock = .free ∧ (blockRead j ws s).phase = .success := by
  unfold blockRead
  split
  · exact .inl rfl
  · exact .inr ⟨rfl, rfl⟩

theorem attemptFailed_lock (s : State) :
    (attemptFailed s).lock = s.lock ∨ (attemptFailed s).lock = .free ∧ (attemptFailed s).phase = .exhausted := by
  unfold attemptFailed
  split
  · exact .inl rfl
  · exact .inr ⟨rfl, rfl⟩

/-- Only the answer to an attempt can take the lock from its holder, and then it ends the read: the moves that set the lock anew
find it free. -/
theorem lock_of_stepEffect {c : Caller} (h : StepEffect s { s with agenda := rest } m t)
    (held : s.lock = .held c) : t.lock = .held c ∨ t.lock = .free ∧ (t.phase = .success ∨ t.phase = .exhausted) := by
  cases h with
  | nothing | answered | queued | connected | waitEnded | readDone | readFailed => exact .inl held
  | started _ _ _ _ free | acquired _ _ free => simp [held] at free
  | attemptOk => exact (blockRead_lock ..).imp (·.trans held) fun ⟨free, success⟩ => ⟨free, .inl success⟩
  | attemptErr => exact (attemptFailed_lock _).imp (·.trans held) fun ⟨free, exhausted⟩ => ⟨free, .inr exhausted⟩

/-- A read in progress holds the lock for its caller (R37). -/
theorem lock_of_attempting (hs : ReaderConsistent s) (attempting : s.phase = .attempting) (job : s.job = some j) :
    s.lock = .held j.caller := by
  obtain ⟨j', job', held, -⟩ := (readerConsistent_attempting_iff attempting).1 hs
  obtain rfl : j = j' := Option.some.inj (job.symm.trans job')
  exact held

/-- The reader records an event only for the read in progress. -/
theorem history_of_stepEffect (hs : ReaderConsistent s) (h : StepEffect s { s with agenda := rest } m t) :
    t.history = s.history ∨ ∃ e : BusEvent, t.history = s.history ++ [e] ∧ s.lock = .held e.caller := by
  cases h with
  | nothing | answered | started | queued | connected | acquired | readDone | readFailed => exact .inl rfl
  | attemptOk _ _ _ _ attempting _ job => exact .inr ⟨_, blockRead_history .., lock_of_attempting hs attempting job⟩
  | attemptErr _ _ _ attempting _ job => exact .inr ⟨_, attemptFailed_history _, lock_of_attempting hs attempting job⟩
  | waitEnded _ attempting _ job => exact .inr ⟨_, rfl, lock_of_attempting hs attempting job⟩

/-- Settles O52, by the inversion of `step`. -/
theorem lockIsHeldForTheWholeRead : Obligations.LockIsHeldForTheWholeRead := by
  intro s t hs h
  obtain ⟨-, rfl⟩ | ⟨m, rest, -, heff⟩ := step_effect h
  · exact ⟨fun c held => .inl held, .inl rfl⟩
  · exact ⟨fun c held => lock_of_stepEffect heff held, history_of_stepEffect hs.reader heff⟩

/-! ## Runs from reset -/

/-- By induction on the steps: each step keeps the invariant, and none from a state that meets it faults. -/
theorem safeFor_of_consistent (n : Nat) (hs : Consistent s) : SafeFor n s := by
  induction n generalizing s with
  | zero => exact fun r => nofun
  | succ n ih =>
    intro r
    cases hstep : step s with
    | next t =>
      rw [runFor_succ_of_next hstep]
      exact ih (everyStepKeepsTheReaderConsistent s t hs hstep) r
    | fault r' => exact absurd hstep (consistentStatesNeverFault s r' hs)
    | refused r' =>
      rw [runFor_succ_of_refused hstep]
      nofun

/-- The inputs of a run are no part of the invariant. -/
theorem consistent_resetWith (moves : List Move) : Consistent (State.resetWith moves) :=
  ⟨resetIsConsistent.reader, resetIsConsistent.boot⟩

/-- Settles O59: a run from reset begins in a consistent state. -/
theorem noRunFromResetFaults : Obligations.NoRunFromResetFaults :=
  fun moves n => safeFor_of_consistent n (consistent_resetWith moves)

/-! ## The address map -/

/-- The region of index `n` begins where the ones before it end (R29). -/
theorem addressMap_base (n : Nat) (h : n < Config.addressMap.length) :
    Config.addressMap[n].base = ((Config.addressMap.take n).map Config.Region.size).sum := by
  revert n
  decide

/-- One of the blocks of a read holds the address `a`. -/
def ReadKind.covers (kind : ReadKind) (a : Nat) : Prop := ∃ b ∈ kind.blocks, b.addr.toNat ≤ a ∧ a < b.addr.toNat + b.count

theorem status_covers_iff (a : Nat) : ReadKind.status.covers a ↔ 0x0008 ≤ a ∧ a < 0x001E ∨ 0x001E ≤ a ∧ a < 0x0034 := by
  simp [ReadKind.covers, ReadKind.blocks]

/-- Block `i` of the log read begins at `0x8000 + 16 * i`, so `a` is in block `(a - 0x8000) / 16`. -/
theorem log_covers_iff (a : Nat) : ReadKind.log.covers a ↔ 0x8000 ≤ a ∧ a < 0x8200 := by
  have haddr : ∀ i < 32, (BitVec.ofNat 16 (Config.logBase + 16 * i)).toNat = 0x8000 + 16 * i := by decide
  constructor
  · rintro ⟨b, hb, hle, hlt⟩
    obtain ⟨i, hi, rfl⟩ := List.mem_map.1 hb
    have hi : i < 32 := List.mem_range.1 hi
    simp only [haddr i hi] at hle hlt
    omega
  · rintro ⟨hle, hlt⟩
    have hi : (a - 0x8000) / 16 < 32 := by omega
    refine ⟨_, List.mem_map_of_mem (List.mem_range.2 hi), ?_⟩
    simp only [haddr _ hi]
    omega

theorem statusRegions_iff (a : Nat) :
    (∃ r ∈ Config.addressMap, (r.kind = .statusBlockA ∨ r.kind = .statusBlockB) ∧ r.base ≤ a ∧ a < r.base + r.size) ↔
      0x0008 ≤ a ∧ a < 0x001E ∨ 0x001E ≤ a ∧ a < 0x0034 := by
  simp [Config.addressMap]

theorem logRegion_iff (a : Nat) :
    (∃ r ∈ Config.addressMap, r.kind = .logRegion ∧ r.base ≤ a ∧ a < r.base + r.size) ↔ 0x8000 ≤ a ∧ a < 0x8200 := by
  simp [Config.addressMap]

/-- Settles O60: blocks and regions hold the same addresses, `0x0008` to `0x0033` in two parts for the status read, `0x8000` to
`0x81FF` for the log read. -/
theorem addressMapIsCoveredByTheFixedReads : Obligations.AddressMapIsCoveredByTheFixedReads :=
  ⟨fun n h => ⟨_, List.getElem?_eq_getElem h, addressMap_base n h⟩, rfl,
    fun a => (status_covers_iff a).trans (statusRegions_iff a).symm, fun a => (log_covers_iff a).trans (logRegion_iff a).symm⟩

end Sys2Proof.Machine

/-! PROOFS. Requests: the command word's fields and its used bits, and which requests decode and to what (30_encoding.md R45-R48, R51,
R61). -/

namespace Sys2Proof

/-! ## The command word (R46, R51) -/

/-- The three fields are the whole word. -/
theorem packCmd_fields (cmd : BitVec 36) : packCmd (opField cmd) (bField cmd) (aField cmd) = cmd := by
  have hob : opField cmd ++ bField cmd = cmd.extractLsb' 16 20 := BitVec.extractLsb'_append_extractLsb'_eq_extractLsb' rfl
  have hoba : cmd.extractLsb' 16 20 ++ aField cmd = cmd.extractLsb' 0 36 := BitVec.extractLsb'_append_extractLsb'_eq_extractLsb' rfl
  rw [packCmd, hob]
  exact hoba.trans BitVec.extractLsb'_eq_self

/-- The mask of an operand word that is used whole, as a literal. -/
@[simp] theorem word_and_allOnes (w : Word) : w &&& 0xFFFF#16 = w := BitVec.and_allOnes

/-- A mask written field by field acts field by field. -/
theorem and_packCmd_allOnes (cmd : BitVec 36) (mb ma : Word) :
    cmd &&& packCmd 0xF mb ma = packCmd (opField cmd) (bField cmd &&& mb) (aField cmd &&& ma) := by
  have hop : opField cmd &&& 0xF = opField cmd := BitVec.and_allOnes
  conv_lhs => rw [← packCmd_fields cmd]
  rw [packCmd_and, hop]

/-- Every operation uses its operation code. -/
theorem opField_usedMask (op : Nat) : opField (usedMask op) = 0xF := by
  unfold usedMask
  split <;> rfl

/-- A FaultSet written back as an operand word is that word without its ignored bits. -/
@[simp] theorem faultSetWord_faultSetField (w : Word) : faultSetWord (faultSetField w) = w &&& 0x01FF := by
  apply BitVec.eq_of_getLsbD_eq
  intro i hi
  simp only [faultSetWord, faultSetField, BitVec.getLsbD_setWidth, BitVec.getLsbD_extractLsb', BitVec.getLsbD_and]
  interval_cases i <;> simp

/-- The request with the bits that its operation does not use cleared. -/
def Request.cleared (r : Request) : Request := ⟨r.cmd &&& usedMask (opField r.cmd).toNat, r.buf⟩

@[simp] theorem opField_cleared (r : Request) : opField r.cleared.cmd = opField r.cmd := by
  have hmask := opField_usedMask (opField r.cmd).toNat
  rw [opField] at hmask
  rw [Request.cleared, opField, BitVec.extractLsb'_and, hmask]
  exact BitVec.and_allOnes

/-! ## What an instruction is written as -/

/-- Every operand survives the way through the command word or the buffer. -/
@[simp] theorem decode_encode (i : Instr) : decode (encode i) = .ok i := by
  cases i
  case decStatus buf | decLogday buf | buildLog buf => simp [encode, decode, withBuffer_ok]
  all_goals simp [encode, decode, withoutBuffer_ok]

/-! ## What a request decodes to -/

/-- `d` is what the request should decode to when its code is an operation's: with the length of that operation (R47) an
instruction, the one written as the request without its unused bits (R51), and with another length an error. -/
structure Request.DecodesByLength (r : Request) (d : Except DecodeError Instr) : Prop where
  ok_of_length : r.buf.length = operandLength (opField r.cmd).toNat → ∃ i, d = .ok i ∧ encode i = r.cleared
  error_of_length_ne : r.buf.length ≠ operandLength (opField r.cmd).toNat → d = .error (.bufferLength (opField r.cmd) r.buf.length)

section
variable {r : Request} {op : Nat} {mb ma : Word} (hop : (opField r.cmd).toNat = op) (mask : usedMask op = packCmd 0xF mb ma)
include hop mask

theorem Request.cleared_eq_packCmd :
    r.cleared = ⟨packCmd (BitVec.ofNat 4 op) (bField r.cmd &&& mb) (aField r.cmd &&& ma), r.buf⟩ := by
  have hfield : opField r.cmd = BitVec.ofNat 4 op := by rw [← hop, BitVec.ofNat_toNat, BitVec.setWidth_eq]
  rw [cleared, hop, mask, and_packCmd_allOnes, hfield]

theorem decodesByLength_withoutBuffer {i : Instr} (length : operandLength op = 0)
    (written : encode i = ⟨packCmd (BitVec.ofNat 4 op) (bField r.cmd &&& mb) (aField r.cmd &&& ma), []⟩) :
    r.DecodesByLength (withoutBuffer r i) where
  ok_of_length h := by
    have hbuf : r.buf = [] := List.length_eq_zero_iff.1 (by rw [h, hop, length])
    exact ⟨i, withoutBuffer_ok hbuf, by rw [written, Request.cleared_eq_packCmd hop mask, hbuf]⟩
  error_of_length_ne h := by
    rw [hop, length] at h
    exact if_neg h

theorem decodesByLength_withBuffer {n : Nat} {i : Buffer n → Instr} (length : operandLength op = n)
    (written : ∀ buf, encode (i buf) = ⟨packCmd (BitVec.ofNat 4 op) (bField r.cmd &&& mb) (aField r.cmd &&& ma), buf.words⟩) :
    r.DecodesByLength (withBuffer n r i) where
  ok_of_length h := by
    rw [hop, length] at h
    exact ⟨i ⟨r.buf, h⟩, dif_pos h, by rw [written, Request.cleared_eq_packCmd hop mask]⟩
  error_of_length_ne h := by
    rw [hop, length] at h
    exact dif_neg h

end

theorem opcode_toNat_eq_fifteen_iff (op : BitVec 4) : op.toNat = 15 ↔ op = 0xF :=
  ⟨fun h => BitVec.eq_of_toNat_eq h, fun h => h ▸ rfl⟩

/-- One row of R48 for each operation code below 0xF: the branch `h_k` of `decode` is that of code `k - 1`. The rows differ in the masks
of their operand words, and in whether a buffer stands beside them. -/
theorem decodesByLength_decode {r : Request} (h : opField r.cmd ≠ 0xF) : r.DecodesByLength (decode r) := by
  unfold decode
  split
  case h_16 =>
    have hlt : (opField r.cmd).toNat < 16 := (opField r.cmd).isLt
    have hreserved : (opField r.cmd).toNat ≠ 15 := fun e => h ((opcode_toNat_eq_fifteen_iff _).1 e)
    simp only [imp_false] at *
    omega
  case h_15 hop => exact decodesByLength_withoutBuffer hop (mb := 0xFFFF) (ma := 0xFFFF) rfl rfl (by simp [encode])
  case h_13 hop | h_14 hop => exact decodesByLength_withoutBuffer hop (mb := 0) (ma := 0) rfl rfl (by simp [encode])
  case h_10 hop | h_11 hop | h_12 hop =>
    exact decodesByLength_withBuffer hop (mb := 0) (ma := 0) rfl rfl fun buf => by simp [encode]
  case h_7 hop | h_8 hop | h_9 hop =>
    exact decodesByLength_withoutBuffer hop (mb := 0x01FF) (ma := 0x01FF) rfl rfl (by simp [encode])
  case h_1 hop | h_2 hop | h_3 hop | h_4 hop | h_5 hop | h_6 hop =>
    exact decodesByLength_withoutBuffer hop (mb := 0) (ma := 0xFFFF) rfl rfl (by simp [encode])

theorem decode_reserved {r : Request} (h : opField r.cmd = 0xF) : decode r = .error (.reservedOp 0xF) := by
  simp [decode, h]

theorem encode_of_decode {r : Request} {i : Instr} (h : decode r = .ok i) : encode i = r.cleared := by
  by_cases hop : opField r.cmd = 0xF
  · cases (decode_reserved hop).symm.trans h
  by_cases hlength : r.buf.length = operandLength (opField r.cmd).toNat
  · obtain ⟨j, hj, written⟩ := (decodesByLength_decode hop).ok_of_length hlength
    obtain rfl : i = j := Except.ok.inj (h.symm.trans hj)
    exact written
  · cases ((decodesByLength_decode hop).error_of_length_ne hlength).symm.trans h

/-- The decoder does not look at the unused bits: the instruction is the one that the cleared request is the encoding of, and the
errors name only the operation code and the length. -/
@[simp] theorem decode_cleared (r : Request) : decode r.cleared = decode r := by
  by_cases hop : opField r.cmd = 0xF
  · rw [decode_reserved hop, decode_reserved ((opField_cleared r).trans hop)]
  by_cases hlength : r.buf.length = operandLength (opField r.cmd).toNat
  · obtain ⟨i, hi, written⟩ := (decodesByLength_decode hop).ok_of_length hlength
    rw [hi, ← written, decode_encode]
  · have hcleared := opField_cleared r
    have hwrong := (decodesByLength_decode (r := r.cleared) (hcleared ▸ hop)).error_of_length_ne (hcleared ▸ hlength)
    rw [(decodesByLength_decode hop).error_of_length_ne hlength, hwrong, hcleared]
    rfl

theorem wellFormed_eq_false_iff (r : Request) :
    r.wellFormed = false ↔ opField r.cmd ≠ 0xF ∧ r.buf.length ≠ operandLength (opField r.cmd).toNat := by
  rw [Request.wellFormed, ← opField]
  simp [opcode_toNat_eq_fifteen_iff]

theorem wellFormed_of_decode {r : Request} {i : Instr} (h : decode r = .ok i) : r.wellFormed = true := by
  by_contra hwf
  obtain ⟨hop, hlength⟩ := (wellFormed_eq_false_iff r).1 (Bool.not_eq_true _ ▸ hwf)
  cases ((decodesByLength_decode hop).error_of_length_ne hlength).symm.trans h

theorem canonical_iff_cleared_eq (r : Request) : r.canonical = true ↔ r.cleared = r := by
  rw [Request.canonical, ← opField, beq_iff_eq]
  exact ⟨fun h => Request.mk.injEq .. ▸ ⟨h, rfl⟩, fun h => congrArg Request.cmd h⟩

/-- Settles O1: the fields of the written word are the operands, and its code is the operation's. -/
theorem decodeOfEncodeIsTheInstruction : Obligations.DecodeOfEncodeIsTheInstruction := decode_encode

/-- Settles O2: what a request decodes to is written as the cleared request; a written request decodes, and is written as itself. -/
theorem encodeOfDecodeClearsUnusedBits : Obligations.EncodeOfDecodeClearsUnusedBits := by
  refine ⟨fun i => ⟨wellFormed_of_decode (decode_encode i), ?_⟩, fun r i h => ?_⟩
  · exact (canonical_iff_cleared_eq _).2 (encode_of_decode (decode_encode i)).symm
  · rw [encode_of_decode h]
    exact ⟨rfl, rfl⟩

/-- Settles O3, by the rows of R48. -/
theorem decodingSortsEveryRequest : Obligations.DecodingSortsEveryRequest := by
  refine fun r => ⟨decode_reserved, fun hop hlength => ?_, fun hop => (decodesByLength_decode hop).error_of_length_ne⟩
  obtain ⟨i, hi, -⟩ := (decodesByLength_decode hop).ok_of_length hlength
  exact ⟨i, hi⟩

/-- Settles O4, by evaluating the decoder on the six words. -/
theorem writtenOutWordsDecode : Obligations.WrittenOutWordsDecode := ⟨rfl, rfl, rfl, rfl, rfl, rfl⟩

end Sys2Proof

/-! PROOFS. What a step makes of a request and of a word of the opcode table (30_encoding.md R45, R47, R51, R61, R62; 60_exceptions.md
R169), and what a response says (30_encoding.md R49). -/

namespace Sys2Proof.Machine

variable {s : State} {c : Caller} {r : Request} {rest : List Move}

/-! ## Serving a request -/

theorem step_request (agenda : s.agenda = .request c r :: rest) : step s = serveRequest c r { s with agenda := rest } :=
  step_cons agenda

theorem serveRequest_congr {r' : Request} (h : decode r = decode r') : serveRequest c r s = serveRequest c r' s := by
  unfold serveRequest
  rw [h]

theorem serveRequest_of_decode {i : Instr} (h : decode r = .ok i) : serveRequest c r s = exec i { s with caller := c } := by
  rw [serveRequest, h]

theorem serveRequest_of_reserved {op : BitVec 4} (h : decode r = .error (.reservedOp op)) :
    serveRequest c r s = .next (({ s with caller := c } : State).responding (.err (.illegalOp op))) := by
  rw [serveRequest, h]
  rfl

theorem serveRequest_of_bufferLength {op : BitVec 4} {n : Nat} (h : decode r = .error (.bufferLength op n)) :
    serveRequest c r s = .refused .malformedRequest := by
  rw [serveRequest, h]

/-- Settles O5: the move is taken, and the request served. -/
theorem stepExecutesDecodedRequest : Obligations.StepExecutesDecodedRequest := by
  intro s c r rest i agenda h
  rw [step_request agenda, serveRequest_of_decode h]

/-- Settles O7: the response is the error IllegalOp with the code. -/
theorem reservedOpAnswersIllegalOp : Obligations.ReservedOpAnswersIllegalOp := by
  intro s c r rest agenda hop
  refine ⟨.err (.illegalOp 0xF), ?_, rfl, rfl, rfl⟩
  rw [step_request agenda, serveRequest_of_reserved (decode_reserved hop)]
  rfl

/-- Settles O8: the decoder finds the length wrong, and the request is refused for it. -/
theorem wrongBufferLengthIsRefused : Obligations.WrongBufferLengthIsRefused := by
  intro s c r rest agenda h
  obtain ⟨hop, hlength⟩ := (wellFormed_eq_false_iff r).1 h
  rw [step_request agenda, serveRequest_of_bufferLength ((decodesByLength_decode hop).error_of_length_ne hlength)]

/-- Settles O9: the two requests are the same one when cleared, and so decode to the same. -/
theorem unusedCommandBitsAreIgnored : Obligations.UnusedCommandBitsAreIgnored := by
  intro s c r r' rest hbuf hcmd
  have hcleared : r.cleared = r'.cleared := Request.mk.injEq .. ▸ ⟨hcmd, hbuf⟩
  have hdecode : decode r = decode r' := by rw [← decode_cleared r, hcleared, decode_cleared]
  rw [step_request rfl, step_request rfl, serveRequest_congr hdecode]

/-! ## A word of the opcode table -/

theorem decodeTableWord_eq_some_iff {nbits w : Nat} {i : Instr} :
    decodeTableWord nbits w = some i ↔ ∃ r, tableRequest nbits w = some r ∧ decode r = .ok i := by
  unfold decodeTableWord
  cases tableRequest nbits w with
  | none => simp
  | some r => cases h : decode r <;> simp [h]

theorem needsConnection_encode (i : Instr) : needsConnection (encode i) = (readKindOf i).isSome := by
  cases i <;> simp [needsConnection, encode, readKindOf]

/-- The operation code decides whether the connection is needed, and the unused bits are no part of it. -/
theorem needsConnection_of_decode {i : Instr} (h : decode r = .ok i) : needsConnection r = (readKindOf i).isSome := by
  rw [← needsConnection_encode, encode_of_decode h, needsConnection, needsConnection, opField_cleared]

/-- Settles O6: the request that stands for the word is the next move, of the caller on record. -/
theorem placedTableWordRunsNext : Obligations.PlacedTableWordRunsNext := by
  intro s nbits w i h
  obtain ⟨r, hr, hi⟩ := decodeTableWord_eq_some_iff.1 h
  have hplaced : s.withFetchWord nbits w = s.withRequest r := by rw [State.withFetchWord, hr]
  rw [hplaced, step_request rfl, serveRequest_of_decode hi, ← needsConnection_of_decode hi]
  rfl

/-! ## Responses (R49) -/

theorem Response.status_le (r : Response) : r.status ≤ 4 := by
  cases r with
  | ok v => simp [status]
  | err e => cases e <;> simp [status]

theorem Response.status_eq_zero_iff (r : Response) : r.status = 0 ↔ r.result.isSome := by
  cases r with
  | ok v => simp [status, result]
  | err e => cases e <;> simp [status, result]

theorem Response.info_of_result {r : Response} (h : r.result.isSome) : r.info = 0 := by
  cases r with
  | ok v => rfl
  | err e => cases h

/-- The status tells the four errors apart, and the info holds the whole payload: an operation code survives its extension. -/
theorem errorResponse_ext {e e' : ErrorResponse} (status : (Response.err e).status = (Response.err e').status)
    (info : (Response.err e).info = (Response.err e').info) : e = e' := by
  cases e <;> cases e'
  case illegalOp.illegalOp op op' =>
    have hop : (op.setWidth 16).setWidth 4 = (op'.setWidth 16).setWidth 4 := congrArg (BitVec.setWidth 4) info
    simpa using hop
  all_goals simp_all [Response.status, Response.info]

/-- Settles O10, by the five kinds of response. -/
theorem responsesAreDistinguishable : Obligations.ResponsesAreDistinguishable :=
  ⟨fun r => ⟨r.status_le, r.status_eq_zero_iff, fun h => Response.info_of_result (r.status_eq_zero_iff.1 h)⟩,
    fun _ => ⟨rfl, rfl⟩, fun _ => ⟨rfl, rfl⟩, fun _ => ⟨rfl, rfl⟩, fun _ => ⟨rfl, rfl⟩, fun _ _ => errorResponse_ext⟩

end Sys2Proof.Machine

/-! PROOFS. The operations with one operand word, from the command word to the response, and the sentinel slot (30_encoding.md R50,
R51, R53-R55, R59; 40_scale_codec.md R75; 41_state_decoder.md R85; 42_fault_extractor.md R90; 44_log_unpacker.md R114). -/

namespace Sys2Proof.Machine

/-! ## Temperatures -/

/-- Two's complement of a byte (R75). -/
theorem temperatureField_toInt (raw : Word) :
    (temperatureField raw).toInt = if raw.toNat % 256 < 128 then (raw.toNat % 256 : Int) else (raw.toNat % 256 : Int) - 256 := by
  rw [temperatureField, BitVec.toInt_eq_toNat_cond, loByte_toNat]
  split <;> split <;> omega

/-- Settles O17: the low byte, read as two's complement. -/
theorem tempIsTheSignedLowByte : Obligations.TempIsTheSignedLowByte := by
  refine fun a b => ⟨by simp [decode, withoutBuffer_ok], fun s => ⟨temperatureField a, ?_, temperatureField_toInt a⟩⟩
  exact exec_of_pureResponse rfl s

/-- Settles O18: a path of at least 8 bits only extends the sign. -/
theorem widenedTemperatureKeepsItsValue : Obligations.WidenedTemperatureKeepsItsValue :=
  fun _ _ => BitVec.toInt_signExtend_of_le

/-! ## The closed-set decoders -/

theorem exec_decState_of_ok {a : Word} {st : OperatingState} (h : decodeState a = .ok st) (s : State) :
    exec (.decState a) s = .next (s.responding (.ok (.operatingState st))) :=
  exec_of_pureResponse (by simp [pureResponse, h]) s

theorem exec_decState_of_error {a : Word} {e : ErrorResponse} (h : decodeState a = .error e) (s : State) :
    exec (.decState a) s = .next (s.responding (.err e)) :=
  exec_of_pureResponse (by simp [pureResponse, h]) s

theorem exec_decFault_of_ok {a : Word} {f : FaultSet} (h : decodeFault a = .ok f) (s : State) :
    exec (.decFault a) s = .next (s.responding (.ok (.faultSet f))) :=
  exec_of_pureResponse (by simp [pureResponse, h]) s

theorem exec_decFault_of_error {a : Word} {e : ErrorResponse} (h : decodeFault a = .error e) (s : State) :
    exec (.decFault a) s = .next (s.responding (.err e)) :=
  exec_of_pureResponse (by simp [pureResponse, h]) s

/-- Settles O19, by the two outcomes of the state decoder. -/
theorem decStateAcceptsZeroToEight : Obligations.DecStateAcceptsZeroToEight := by
  refine fun a b => ⟨by simp [decode, withoutBuffer_ok], fun s => ?_⟩
  obtain ⟨hlegal, st, hst, hnumber⟩ | ⟨hillegal, herror⟩ := decodeState_cases a
  · exact ⟨fun _ => ⟨st, exec_decState_of_ok hst s, hnumber⟩, fun h => by omega⟩
  · exact ⟨fun h => by omega, fun _ => ⟨_, exec_decState_of_error herror s, rfl, rfl, rfl, rfl⟩⟩

/-- Settles O20, by the two outcomes of the fault decoder. -/
theorem decFaultAcceptsNineBits : Obligations.DecFaultAcceptsNineBits := by
  refine fun a b => ⟨by simp [decode, withoutBuffer_ok], fun s => ?_⟩
  obtain ⟨hlegal, hf⟩ | ⟨hillegal, herror⟩ := decodeFault_cases a
  · exact ⟨fun _ => ⟨_, exec_decFault_of_ok hf s, faultSetField_getLsbD a⟩, fun h => absurd hlegal h⟩
  · exact ⟨fun h => absurd h hillegal, fun _ => ⟨_, exec_decFault_of_error herror s, rfl, rfl, rfl, rfl⟩⟩

/-! ## The sentinel slot -/

/-- The three bytes of the hourmeter are word 0 and the high byte of word 1 (R111); all zero or all one they are a sentinel. -/
theorem isSentinel_hourmeterField {w0 w1 : Word}
    (h : w0 = 0x0000 ∧ w1.toNat / 256 = 0x00 ∨ w0 = 0xFFFF ∧ w1.toNat / 256 = 0xFF) : isSentinel (hourmeterField w0 w1) = true := by
  have hbyte (n : Nat) (b : BitVec 8) (hn : w1.toNat / 256 = n) (hb : b.toNat = n) : hiByte w1 = b :=
    BitVec.eq_of_toNat_eq ((hiByte_toNat w1).trans (hn.trans hb.symm))
  rw [hourmeterField_eq_bytes]
  obtain ⟨rfl, h1⟩ | ⟨rfl, h1⟩ := h
  · rw [hbyte 0x00 0x00 h1 rfl]
    decide
  · rw [hbyte 0xFF 0xFF h1 rfl]
    decide

theorem decodeLogDay_of_sentinel {slot : Buffer 16}
    (h : isSentinel (hourmeterField (bufferWord slot 0) (bufferWord slot 1)) = true) : decodeLogDay slot = none := by
  rw [← Option.not_isSome_iff_eq_none, decodeLogDay_isSome, h]
  decide

/-- Settles O28: the hourmeter is a sentinel, and the slot gives no record. -/
theorem decLogdaySentinelGivesNoRecord : Obligations.DecLogdaySentinelGivesNoRecord := by
  intro slot s w h
  have hsentinel := isSentinel_hourmeterField h
  have hnone : decodeLogDay slot = none := decodeLogDay_of_sentinel (by rwa [bufferWord_eq_getD, bufferWord_eq_getD])
  exact exec_of_pureResponse (by rw [pureResponse, hnone]) s

end Sys2Proof.Machine

/-! PROOFS. Binary32 arithmetic counted in units of 2^-149: a rounding depends on the ratio alone, scales with powers of two, keeps
what 24 bits hold and is at most half a unit in the last place away; each operation is one rounding (40_scale_codec.md R70). -/

namespace Sys2Proof.Machine

/-! ## Rounding depends on the ratio alone -/

theorem nearestEven_mul_right {c : Nat} (hc : 0 < c) (num den : Nat) : nearestEven (num * c) (den * c) = nearestEven num den := by
  simp only [nearestEven, Nat.mul_div_mul_right _ _ hc, Nat.mul_mod_mul_right, ← Nat.mul_assoc, Nat.mul_lt_mul_right hc]

theorem placesAbove_mul_right {c : Nat} (hc : 0 < c) (num den : Nat) : placesAbove (num * c) (den * c) = placesAbove num den := by
  rw [placesAbove, placesAbove, Nat.mul_div_mul_right _ _ hc]

/-- What a rounding of `num / den` comes to, in units: the rounded integer at its place. -/
def roundUnits (num den : Nat) : Nat := nearestEven num (den * 2 ^ placesAbove num den) * 2 ^ placesAbove num den

section
variable {num den num' den' : Nat}

section
variable (hden : 0 < den) (hden' : 0 < den') (h : num * den' = num' * den)
include hden hden' h

theorem nearestEven_congr : nearestEven num den = nearestEven num' den' := by
  rw [← nearestEven_mul_right hden', ← nearestEven_mul_right hden num', h, Nat.mul_comm den]

theorem placesAbove_congr : placesAbove num den = placesAbove num' den' := by
  rw [← placesAbove_mul_right hden', ← placesAbove_mul_right hden num', h, Nat.mul_comm den]

theorem roundedInteger_congr :
    nearestEven num (den * 2 ^ placesAbove num den) = nearestEven num' (den' * 2 ^ placesAbove num' den') := by
  rw [placesAbove_congr hden hden' h]
  exact nearestEven_congr (by positivity) (by positivity) (by rw [← Nat.mul_assoc, ← Nat.mul_assoc, h])

theorem roundedMagnitude_congr : roundedMagnitude num den = roundedMagnitude num' den' := by
  rw [roundedMagnitude, roundedInteger_congr hden hden' h, placesAbove_congr hden hden' h, roundedMagnitude]

theorem roundUnits_congr : roundUnits num den = roundUnits num' den' := by
  rw [roundUnits, roundedInteger_congr hden hden' h, placesAbove_congr hden hden' h, roundUnits]

end

/-! ## The rounded value -/

theorem placesAbove_le (hden : 0 < den) (hb : num < den * 2 ^ 250) : placesAbove num den ≤ 226 := by
  by_contra! hlt
  have hlow : 2 ^ 23 * (den * 2 ^ placesAbove num den) ≤ num := (placesAbove_spec num den hden).2 (by omega)
  have hpow : 2 ^ 227 ≤ 2 ^ placesAbove num den := Nat.pow_le_pow_right (by decide) hlt
  have : den * 2 ^ 250 ≤ num := calc
    den * 2 ^ 250 = 2 ^ 23 * (den * 2 ^ 227) := by ring
    _ ≤ 2 ^ 23 * (den * 2 ^ placesAbove num den) := Nat.mul_le_mul_left _ (Nat.mul_le_mul_left _ hpow)
    _ ≤ num := hlow
  omega

/-- The rounded integer takes at most 24 bits and a carry, and at least 24 above the lowest place. -/
theorem roundedInteger_bounds (hden : 0 < den) :
    nearestEven num (den * 2 ^ placesAbove num den) ≤ 2 ^ 24 ∧
      (0 < placesAbove num den → 2 ^ 23 ≤ nearestEven num (den * 2 ^ placesAbove num den)) := by
  obtain ⟨hhigh, hlow⟩ := placesAbove_spec num den hden
  have hD : 0 < den * 2 ^ placesAbove num den := by positivity
  exact ⟨nearestEven_le _ _ _ hD hhigh.le, fun h0 => le_nearestEven _ _ _ hD (hlow h0)⟩

theorem roundedMagnitude_lt (hden : 0 < den) (hb : num < den * 2 ^ 250) : roundedMagnitude num den < 0x7F800000 := by
  have hplace := placesAbove_le hden hb
  obtain ⟨hinteger, -⟩ := roundedInteger_bounds (num := num) hden
  simp only [roundedMagnitude]
  omega

theorem units_packF32_roundedMagnitude (negative : Bool) (hden : 0 < den) (hb : num < den * 2 ^ 250) :
    units (packF32 negative (roundedMagnitude num den)) = roundUnits num den := by
  obtain ⟨hinteger, hnormal⟩ := roundedInteger_bounds (num := num) hden
  exact units_packF32 negative _ _ hinteger hnormal (roundedMagnitude_lt hden hb)

/-- What 24 bits hold is not rounded. -/
theorem roundUnits_of_exact {m : Nat} (k : Nat) (hden : 0 < den) (hm : m < 2 ^ 24) : roundUnits (m * 2 ^ k * den) den = m * 2 ^ k := by
  have hplace : placesAbove (m * 2 ^ k * den) den ≤ k := by
    by_contra! hlt
    have hlow := (placesAbove_spec (m * 2 ^ k * den) den hden).2 (by omega)
    have hpow : 2 ^ (k + 1) ≤ 2 ^ placesAbove (m * 2 ^ k * den) den := Nat.pow_le_pow_right (by decide) hlt
    have : 2 ^ 24 * (2 ^ k * den) ≤ m * (2 ^ k * den) := calc
      2 ^ 24 * (2 ^ k * den) = 2 ^ 23 * (den * 2 ^ (k + 1)) := by ring
      _ ≤ m * 2 ^ k * den := (Nat.mul_le_mul_left _ (Nat.mul_le_mul_left _ hpow)).trans hlow
      _ = m * (2 ^ k * den) := Nat.mul_assoc ..
    exact absurd (Nat.le_of_mul_le_mul_right this (by positivity)) (by omega)
  unfold roundUnits
  generalize placesAbove (m * 2 ^ k * den) den = t at *
  obtain ⟨d, rfl⟩ := Nat.exists_eq_add_of_le hplace
  have hmul : m * 2 ^ (t + d) * den = m * 2 ^ d * (den * 2 ^ t) := by ring
  rw [hmul, nearestEven_mul _ _ (by positivity)]
  ring

theorem roundUnits_zero (hden : 0 < den) : roundUnits 0 den = 0 := by
  simpa using roundUnits_of_exact (m := 0) 0 hden (by decide)

theorem placesAbove_eq {t : Nat} (hden : 0 < den) (hlow : 2 ^ 23 * (den * 2 ^ t) ≤ num) (hhigh : num < 2 ^ 24 * (den * 2 ^ t)) :
    placesAbove num den = t := by
  have hle : 2 ^ (t + 23) ≤ num / den := (Nat.le_div_iff_mul_le hden).2 (by rw [Nat.pow_add]; linarith)
  have hlt : num / den < 2 ^ (t + 23 + 1) := (Nat.div_lt_iff_lt_mul hden).2 (by rw [Nat.pow_add, Nat.pow_add]; linarith)
  have hne : num / den ≠ 0 := (Nat.lt_of_lt_of_le (by positivity) hle).ne'
  rw [placesAbove, (Nat.log2_eq_iff hne).2 ⟨hle, hlt⟩, Nat.add_sub_cancel]

/-- A power of two moves the place, not the rounded integer, when all 24 bits are in use. -/
theorem roundUnits_mul_two_pow (k : Nat) (hden : 0 < den) (hnum : num = 0 ∨ 2 ^ 23 * den ≤ num) :
    roundUnits (num * 2 ^ k) den = roundUnits num den * 2 ^ k := by
  obtain rfl | hnum := hnum
  · rw [Nat.zero_mul, roundUnits_zero hden, Nat.zero_mul]
  obtain ⟨hhigh, hlow⟩ := placesAbove_spec num den hden
  have hlow : 2 ^ 23 * (den * 2 ^ placesAbove num den) ≤ num := by
    obtain h0 | h0 := Nat.eq_zero_or_pos (placesAbove num den)
    · simpa [h0] using hnum
    · exact hlow h0
  have hplace : placesAbove (num * 2 ^ k) den = placesAbove num den + k := by
    refine placesAbove_eq hden ?_ ?_ <;> rw [Nat.pow_add, ← Nat.mul_assoc den, ← Nat.mul_assoc]
    · exact Nat.mul_le_mul_right _ hlow
    · exact Nat.mul_lt_mul_of_pos_right hhigh (by positivity)
  rw [roundUnits, hplace, Nat.pow_add, ← Nat.mul_assoc den, nearestEven_mul_right (by positivity), ← Nat.mul_assoc, roundUnits]

/-- Half a unit in the last of 24 places. -/
theorem roundUnits_error (hden : 0 < den) (hnum : num = 0 ∨ 2 ^ 23 * den ≤ num) :
    2 ^ 24 * natDist (roundUnits num den * den) num ≤ num := by
  obtain rfl | hnum := hnum
  · simp [roundUnits_zero hden, natDist]
  obtain ⟨-, hlow⟩ := placesAbove_spec num den hden
  obtain ⟨hnear, -⟩ := nearestEven_spec num (den * 2 ^ placesAbove num den) (by positivity)
  rw [roundUnits, Nat.mul_assoc, Nat.mul_comm (2 ^ _) den]
  obtain h0 | h0 := Nat.eq_zero_or_pos (placesAbove num den)
  · rw [h0, Nat.pow_zero, Nat.mul_one] at hnear ⊢
    omega
  · have := hlow h0
    omega

end

/-! ## Finite values that are not negative -/

/-- `x` is the binary32 of `u` units, sign bit 0. -/
structure HoldsUnits (x : F32) (u : Nat) : Prop where
  finite : isFinite x = true
  msb : x.msb = false
  units_eq : units x = u

section
variable {x y : F32} {u v : Nat}

theorem significand_lt (x : F32) : significand x < 2 ^ 24 := by
  have : fracField x < 2 ^ 23 := BitVec.isLt _
  unfold significand
  split <;> omega

theorem le_significand (h : expField x ≠ 0) : 2 ^ 23 ≤ significand x := by
  rw [significand, if_neg h]
  omega

theorem expField_lt (x : F32) : expField x < 2 ^ 8 := BitVec.isLt _

theorem toNat_of_msb_eq_false (h : x.msb = false) : x.toNat = expField x * 2 ^ 23 + fracField x := by
  have hlt : 2 * x.toNat < 2 ^ 32 := BitVec.msb_eq_false_iff_two_mul_lt.1 h
  simp only [expField, fracField, BitVec.extractLsb'_toNat, Nat.shiftRight_eq_div_pow]
  omega

/-- The bits of values that are not negative are in the order of the values. -/
theorem units_lt_units (hx : x.msb = false) (hy : y.msb = false) (h : x.toNat < y.toNat) : units x < units y := by
  rw [toNat_of_msb_eq_false hx, toNat_of_msb_eq_false hy] at h
  have hfx : fracField x < 2 ^ 23 := BitVec.isLt _
  have hfy : fracField y < 2 ^ 23 := BitVec.isLt _
  have hexp : scaleExp x ≤ scaleExp y := by
    unfold scaleExp
    omega
  obtain heq | hlt := hexp.eq_or_lt
  · have hsig : significand x < significand y := by
      unfold scaleExp at heq
      unfold significand
      split <;> split <;> omega
    rw [units, units, heq]
    exact Nat.mul_lt_mul_of_pos_right hsig (by positivity)
  · have hnormal : 2 ^ 23 ≤ significand y := le_significand (by unfold scaleExp at hlt; omega)
    have hpos : 1 ≤ scaleExp x := Nat.le_max_right ..
    calc units x < 2 ^ 24 * 2 ^ (scaleExp x - 1) := Nat.mul_lt_mul_of_pos_right (significand_lt x) (by positivity)
      _ = 2 ^ 23 * 2 ^ (scaleExp x - 1 + 1) := by ring
      _ ≤ significand y * 2 ^ (scaleExp y - 1) := Nat.mul_le_mul hnormal (Nat.pow_le_pow_right (by decide) (by omega))

theorem HoldsUnits.unique (hx : HoldsUnits x u) (hy : HoldsUnits y u) : x = y := by
  have heq : units x = units y := hx.units_eq.trans hy.units_eq.symm
  apply BitVec.eq_of_toNat_eq
  obtain h | h | h := Nat.lt_trichotomy x.toNat y.toNat
  · exact absurd heq (units_lt_units hx.msb hy.msb h).ne
  · exact h
  · exact absurd heq (units_lt_units hy.msb hx.msb h).ne'

theorem holdsUnits_packF32 {num den : Nat} (hden : 0 < den) (hb : num < den * 2 ^ 250) :
    HoldsUnits (packF32 false (roundedMagnitude num den)) (roundUnits num den) where
  finite := isFinite_packF32 _ _ (roundedMagnitude_lt hden hb)
  msb := packF32_msb ..
  units_eq := units_packF32_roundedMagnitude _ hden hb

/-! ## The three operations, in units (R70) -/

/-- The exponents drop out: the product is that of the two values, in units. -/
theorem fmul_eq (hx : isFinite x = true) (hy : isFinite y = true) :
    fmul x y = packF32 (x.msb ^^ y.msb) (roundedMagnitude (units x * units y) (2 ^ 149)) := by
  have hex : 1 ≤ scaleExp x := Nat.le_max_right ..
  have hey : 1 ≤ scaleExp y := Nat.le_max_right ..
  have hexp : scaleExp x + scaleExp y - 151 + 149 = scaleExp x - 1 + (scaleExp y - 1) + (151 - (scaleExp x + scaleExp y)) := by omega
  rw [fmul, if_pos (by rw [hx, hy]; rfl)]
  refine congrArg (packF32 _) (roundedMagnitude_congr (by positivity) (by positivity) ?_)
  calc significand x * significand y * 2 ^ (scaleExp x + scaleExp y - 151) * 2 ^ 149
      = significand x * significand y * 2 ^ (scaleExp x + scaleExp y - 151 + 149) := by rw [Nat.mul_assoc, ← Nat.pow_add]
    _ = units x * units y * 2 ^ (151 - (scaleExp x + scaleExp y)) := by
      rw [hexp, Nat.pow_add, Nat.pow_add, units, units]
      ring

theorem significand_pos_of_units (h : units y ≠ 0) : 0 < significand y := by
  rw [Nat.pos_iff_ne_zero]
  intro h0
  simp [units, h0] at h

theorem fdiv_eq (hx : isFinite x = true) (hy : isFinite y = true) (h0 : units y ≠ 0) :
    fdiv x y = packF32 (x.msb ^^ y.msb) (roundedMagnitude (units x * 2 ^ 149) (units y)) := by
  have hsig := significand_pos_of_units h0
  have hex : 1 ≤ scaleExp x := Nat.le_max_right ..
  have hey : 1 ≤ scaleExp y := Nat.le_max_right ..
  have hexp : scaleExp x + 149 - scaleExp y + (scaleExp y - 1) = scaleExp x - 1 + 149 + (scaleExp y - (scaleExp x + 149)) := by omega
  rw [fdiv, if_pos (by rw [hx, hy, bne_iff_ne.2 hsig.ne']; rfl)]
  refine congrArg (packF32 _) (roundedMagnitude_congr (by positivity) (Nat.pos_of_ne_zero h0) ?_)
  calc significand x * 2 ^ (scaleExp x + 149 - scaleExp y) * units y
      = significand x * significand y * 2 ^ (scaleExp x + 149 - scaleExp y + (scaleExp y - 1)) := by
        rw [Nat.pow_add, units]
        ring
    _ = units x * 2 ^ 149 * (significand y * 2 ^ (scaleExp y - (scaleExp x + 149))) := by
      rw [hexp, Nat.pow_add, Nat.pow_add, units]
      ring

/-- The nearest to any ratio that stands for the product. -/
theorem fmul_isNearestEven {num den : Nat} (hx : isFinite x = true) (hy : isFinite y = true) (hden : 0 < den)
    (h : units x * units y * den = num * 2 ^ 149) (hb : num < den * ((2 ^ 25 - 1) * 2 ^ 252)) :
    IsNearestEven (fmul x y) num den := by
  rw [fmul_eq hx hy, roundedMagnitude_congr (by positivity) hden h]
  exact roundedMagnitude_isNearestEven _ _ _ _ hden rfl hb

theorem fdiv_isNearestEven (hx : isFinite x = true) (hy : isFinite y = true) (h0 : units y ≠ 0)
    (hb : units x * 2 ^ 149 < units y * ((2 ^ 25 - 1) * 2 ^ 252)) : IsNearestEven (fdiv x y) (units x * 2 ^ 149) (units y) := by
  rw [fdiv_eq hx hy h0]
  exact roundedMagnitude_isNearestEven _ _ _ _ (Nat.pos_of_ne_zero h0) rfl hb

theorem toF32_holdsUnits {n : Nat} (hn : n < 2 ^ 24) : HoldsUnits (toF32 n) (n * 2 ^ 149) := by
  have hexact : roundUnits (n * 2 ^ 149) 1 = n * 2 ^ 149 := by simpa using roundUnits_of_exact 149 Nat.one_pos hn
  rw [← hexact]
  exact holdsUnits_packF32 Nat.one_pos (by omega)

theorem holdsUnits_fmul (hx : HoldsUnits x u) (hy : HoldsUnits y v) (hb : u * v < 2 ^ 149 * 2 ^ 250) :
    HoldsUnits (fmul x y) (roundUnits (u * v) (2 ^ 149)) := by
  rw [fmul_eq hx.finite hy.finite, hx.msb, hy.msb, hx.units_eq, hy.units_eq]
  exact holdsUnits_packF32 (by positivity) hb

theorem holdsUnits_fdiv (hx : HoldsUnits x u) (hy : HoldsUnits y v) (hv : 0 < v) (hb : u * 2 ^ 149 < v * 2 ^ 250) :
    HoldsUnits (fdiv x y) (roundUnits (u * 2 ^ 149) v) := by
  rw [fdiv_eq hx.finite hy.finite (hy.units_eq ▸ hv.ne'), hx.msb, hy.msb, hx.units_eq, hy.units_eq]
  exact holdsUnits_packF32 hv hb

/-- Settles O11: in units, each operation is one rounding of the exact result. -/
theorem arithmeticRoundsOnceToNearestEven : Obligations.ArithmeticRoundsOnceToNearestEven := by
  refine ⟨fun n hn => ?_, fun a b ha hb hlt => ⟨?_, ?_⟩, fun a b ha hb h0 hlt => ⟨?_, ?_⟩⟩
  · obtain ⟨hfinite, hmsb, hunits⟩ := toF32_holdsUnits hn
    exact ⟨hfinite, hmsb, hunits⟩
  · rw [fmul_eq ha hb, packF32_msb]
  · exact fmul_isNearestEven ha hb (by positivity) rfl hlt
  · rw [fdiv_eq ha hb h0, packF32_msb]
  · exact fdiv_isNearestEven ha hb h0 hlt

end
end Sys2Proof.Machine

/-! PROOFS. The three scale operations over all words: each is one rounded product, for SCALE_V and SCALE_I divided exactly by 2^15
(40_scale_codec.md R71-R74, R76-R78). -/

namespace Sys2Proof.Machine

/-! ## The scale table (R71) -/

/-- A constant of the table: large enough that its product with a word other than 0 has all 24 bits in use, and far below overflow. -/
structure IsScaleConstant (fs : F32) (c : Nat) : Prop where
  holds : HoldsUnits fs c
  low : 2 ^ 39 ≤ c
  high : c < 2 ^ 200

theorem isScaleConstant_fsVolt : IsScaleConstant Config.fsVolt (100 * 2 ^ 149) :=
  ⟨⟨by decide, by decide, by decide⟩, by decide, by decide⟩

theorem isScaleConstant_fsCurr : IsScaleConstant Config.fsCurr (2593915 * 2 ^ 134) :=
  ⟨⟨by decide, by decide, by decide⟩, by decide, by decide⟩

theorem isScaleConstant_ahStep : IsScaleConstant Config.ahStep (13421773 * 2 ^ 122) :=
  ⟨⟨by decide, by decide, by decide⟩, by decide, by decide⟩

theorem holdsUnits_scaleDiv : HoldsUnits Config.scaleDiv (2 ^ 15 * 2 ^ 149) := ⟨by decide, by decide, by decide⟩

/-! ## Dividing by 2^15 is exact (R76) -/

theorem units_eq_mul_two_pow {x : F32} (h : 2 ^ 38 ≤ units x) : ∃ k, units x = significand x * 2 ^ k * 2 ^ 15 := by
  have hsig := significand_lt x
  have hplace : 15 ≤ scaleExp x - 1 := by
    by_contra! hlt
    have hpow : 2 ^ (scaleExp x - 1) ≤ 2 ^ 14 := Nat.pow_le_pow_right (by decide) (by omega)
    have : units x < 2 ^ 24 * 2 ^ 14 := Nat.mul_lt_mul_of_lt_of_le hsig hpow (by positivity)
    omega
  obtain ⟨k, hk⟩ := Nat.exists_eq_add_of_le' hplace
  exact ⟨k, by rw [units, hk, Nat.pow_add, Nat.mul_assoc]⟩

theorem holdsUnits_fdiv_scaleDiv {x : F32} {m k : Nat} (hm : m < 2 ^ 24) (hb : m * 2 ^ k < 2 ^ 250)
    (hx : HoldsUnits x (m * 2 ^ k * 2 ^ 15)) : HoldsUnits (fdiv x Config.scaleDiv) (m * 2 ^ k) := by
  have h := holdsUnits_fdiv hx holdsUnits_scaleDiv (by positivity) (by omega)
  rwa [Nat.mul_assoc, roundUnits_of_exact k (by positivity) hm] at h

theorem exists_holdsUnits_fdiv_scaleDiv {x : F32} {u : Nat} (hx : HoldsUnits x u) (hu : u = 0 ∨ 2 ^ 38 ≤ u) (hb : u < 2 ^ 250) :
    ∃ w, HoldsUnits (fdiv x Config.scaleDiv) w ∧ w * 2 ^ 15 = u := by
  obtain rfl | hu := hu
  · exact ⟨0 * 2 ^ 0, holdsUnits_fdiv_scaleDiv (by decide) (by decide) hx, rfl⟩
  · obtain ⟨k, hk⟩ := units_eq_mul_two_pow (hx.units_eq.symm ▸ hu)
    rw [hx.units_eq] at hk
    exact ⟨_, holdsUnits_fdiv_scaleDiv (significand_lt x) (by omega) (hk ▸ hx), hk.symm⟩

/-! ## The product, rounded once -/

section
variable {fs : F32} {c : Nat}

/-- The rounding error is far below the step from one word's product to the next. -/
theorem roundUnits_mul_lt_mul {n m : Nat} (hc : 2 ^ 23 ≤ c) (hnm : n < m) (hm : m < 2 ^ 16) :
    roundUnits (n * c) 1 < roundUnits (m * c) 1 := by
  have hstep : (n + 1) * c ≤ m * c := Nat.mul_le_mul_right _ hnm
  have hbound : n * c ≤ 2 ^ 16 * c := Nat.mul_le_mul_right _ (by omega)
  have wide (j : Nat) : j * c = 0 ∨ 2 ^ 23 * 1 ≤ j * c := by
    obtain rfl | hj := Nat.eq_zero_or_pos j
    · exact .inl (Nat.zero_mul c)
    · exact .inr (hc.trans (Nat.le_mul_of_pos_left c hj))
  have hn := roundUnits_error Nat.one_pos (wide n)
  have hm := roundUnits_error Nat.one_pos (wide m)
  unfold natDist at hn hm
  rw [Nat.succ_mul] at hstep
  omega

variable (a b : Word) (hfs : IsScaleConstant fs c)
include hfs

theorem product_lt : a.toNat * c < 2 ^ 16 * 2 ^ 200 := Nat.mul_lt_mul'' a.isLt hfs.high

theorem product_eq_zero_or_ge : a.toNat * c = 0 ∨ 2 ^ 39 ≤ a.toNat * c := by
  obtain h0 | hpos := Nat.eq_zero_or_pos a.toNat
  · exact .inl (by rw [h0, Nat.zero_mul])
  · exact .inr (hfs.low.trans (Nat.le_mul_of_pos_left c hpos))

theorem holdsUnits_product : HoldsUnits (fmul (toF32 a.toNat) fs) (roundUnits (a.toNat * c) 1) := by
  have hlt := product_lt a hfs
  have hratio : a.toNat * 2 ^ 149 * c * 1 = a.toNat * c * 2 ^ 149 := by ring
  rw [← roundUnits_congr (by positivity) Nat.one_pos hratio]
  exact holdsUnits_fmul (toF32_holdsUnits (by omega)) hfs.holds (by omega)

/-- The product is nearest to any ratio that stands for it. -/
theorem product_isNearestEven {num den : Nat} (hden : 0 < den) (h : a.toNat * c * den = num)
    (hb : num < den * ((2 ^ 25 - 1) * 2 ^ 252)) : IsNearestEven (fmul (toF32 a.toNat) fs) num den := by
  obtain ⟨hfinite, -, hunits⟩ := toF32_holdsUnits (n := a.toNat) (by omega)
  refine fmul_isNearestEven hfinite hfs.holds.finite hden ?_ hb
  rw [hunits, hfs.holds.units_eq, ← h]
  ring

theorem roundedProduct_bounds :
    (roundUnits (a.toNat * c) 1 = 0 ∨ 2 ^ 38 ≤ roundUnits (a.toNat * c) 1) ∧ roundUnits (a.toNat * c) 1 < 2 ^ 250 := by
  have hlt := product_lt a hfs
  have hlow := product_eq_zero_or_ge a hfs
  have herror := roundUnits_error (num := a.toNat * c) Nat.one_pos (by omega)
  unfold natDist at herror
  omega

/-- The normative order (R76): the product rounded once, then divided exactly. -/
theorem exists_holdsUnits_scale : ∃ w, HoldsUnits (scale a fs) w ∧ w * 2 ^ 15 = roundUnits (a.toNat * c) 1 := by
  obtain ⟨hlow, hhigh⟩ := roundedProduct_bounds a hfs
  exact exists_holdsUnits_fdiv_scaleDiv (holdsUnits_product a hfs) hlow hhigh

theorem roundedProduct_increasing (hab : a < b) : roundUnits (a.toNat * c) 1 < roundUnits (b.toNat * c) 1 :=
  roundUnits_mul_lt_mul (hfs.low.trans' (by decide)) (BitVec.lt_def.1 hab) b.isLt

theorem product_increasing (hab : a < b) : units (fmul (toF32 a.toNat) fs) < units (fmul (toF32 b.toNat) fs) := by
  rw [(holdsUnits_product a hfs).units_eq, (holdsUnits_product b hfs).units_eq]
  exact roundedProduct_increasing a b hfs hab

theorem scale_increasing (hab : a < b) : units (scale a fs) < units (scale b fs) := by
  obtain ⟨u, hu, hu15⟩ := exists_holdsUnits_scale a hfs
  obtain ⟨v, hv, hv15⟩ := exists_holdsUnits_scale b hfs
  have hlt := roundedProduct_increasing a b hfs hab
  rw [hu.units_eq, hv.units_eq]
  omega

/-- The other order (R78): the division is exact, and the product is rounded as it is without it, 15 places lower. -/
theorem fmul_fdiv_eq_scale : fmul (fdiv (toF32 a.toNat) Config.scaleDiv) fs = scale a fs := by
  have hword : HoldsUnits (toF32 a.toNat) (a.toNat * 2 ^ 134 * 2 ^ 15) := by
    rw [Nat.mul_assoc]
    exact toF32_holdsUnits (by omega)
  have hdivided := holdsUnits_fdiv_scaleDiv (by omega) (by omega) hword
  have hnum : a.toNat * 2 ^ 134 * c = a.toNat * c * 2 ^ 134 := Nat.mul_right_comm ..
  have hlt := product_lt a hfs
  have hproduct := holdsUnits_fmul hdivided hfs.holds (by omega)
  have hwide : a.toNat * 2 ^ 134 * c = 0 ∨ 2 ^ 23 * 2 ^ 149 ≤ a.toNat * 2 ^ 134 * c := by
    have := product_eq_zero_or_ge a hfs
    omega
  obtain ⟨w, hw, hw15⟩ := exists_holdsUnits_scale a hfs
  have hsame : roundUnits (a.toNat * 2 ^ 134 * c) (2 ^ 149) * 2 ^ 15 = w * 2 ^ 15 := by
    rw [← roundUnits_mul_two_pow 15 (by positivity) hwide, hw15]
    exact roundUnits_congr (by positivity) Nat.one_pos (by rw [hnum]; ring)
  rw [Nat.eq_of_mul_eq_mul_right (by positivity) hsame] at hproduct
  exact hproduct.unique hw

end

/-! ## SCALE_V, SCALE_I and SCALE_AH (R72-R74) -/

/-- The product takes at most 23 bits, so neither operation rounds. -/
theorem exists_holdsUnits_scaleVolt (a : Word) : ∃ w, HoldsUnits (scaleVolt a) w ∧ w * 8192 = a.toNat * 25 * 2 ^ 149 := by
  obtain ⟨w, hw, hw15⟩ := exists_holdsUnits_scale a isScaleConstant_fsVolt
  have hexact := roundUnits_of_exact (m := a.toNat * 100) 149 Nat.one_pos (by omega)
  rw [Nat.mul_one, Nat.mul_assoc a.toNat 100 (2 ^ 149), ← hw15] at hexact
  exact ⟨w, hw, by linarith⟩

/-- Settles O12: neither the product nor the division rounds. -/
theorem scaleVoltIsExact : Obligations.ScaleVoltIsExact := by
  intro a s
  obtain ⟨w, hw, hvalue⟩ := exists_holdsUnits_scaleVolt a
  refine ⟨scaleVolt a, exec_of_pureResponse rfl s, rfl, hw.finite, hw.msb, hw.units_eq.symm ▸ hvalue, ?_, ?_, ?_, ?_⟩
  all_goals
    rintro rfl
    decide

/-- Settles O13: the product is rounded once, and its division by 2^15 is exact. -/
theorem scaleCurrRoundsTheProductOnce : Obligations.ScaleCurrRoundsTheProductOnce := by
  intro a s
  have hp := holdsUnits_product a isScaleConstant_fsCurr
  obtain ⟨w, hw, hw15⟩ := exists_holdsUnits_scale a isScaleConstant_fsCurr
  have hnearest := product_isNearestEven (num := a.toNat * 2593915 * 2 ^ 149) (den := 2 ^ 15) a isScaleConstant_fsCurr (by decide)
    (by ring) (by omega)
  refine ⟨_, scaleCurr a, exec_of_pureResponse rfl s, rfl, rfl, hnearest, hw.finite, hw.msb, ?_, ?_, ?_, ?_, ?_, ?_, ?_, ?_⟩
  · rw [hp.units_eq, ← hw15]
    exact congrArg (· * 2 ^ 15) hw.units_eq
  all_goals
    rintro rfl
    decide

/-- Settles O14: one product, with `0x3DCCCCCD`. -/
theorem scaleAmpHoursIsOneRoundedProduct : Obligations.ScaleAmpHoursIsOneRoundedProduct := by
  intro a s
  have hx := holdsUnits_product a isScaleConstant_ahStep
  have hnearest := product_isNearestEven (num := a.toNat * 13421773 * 2 ^ 149) (den := 2 ^ 27) a isScaleConstant_ahStep (by decide)
    (by ring) (by omega)
  refine ⟨scaleAmpHours a, exec_of_pureResponse rfl s, rfl, hx.msb, hnearest, ?_, ?_, ?_, ?_, ?_, ?_, ?_⟩
  all_goals
    rintro rfl
    decide

/-! ## Range and growth (R77) -/

theorem normal_of_le_units {x : F32} (h : 2 ^ 23 ≤ units x) : 1 ≤ expField x := by
  by_contra! h0
  have hfrac : fracField x < 2 ^ 23 := BitVec.isLt _
  have hexp : expField x = 0 := by omega
  simp [units, significand, scaleExp, hexp] at h
  omega

/-- A growing scale lies below its last value, and what its first step reaches is normal. -/
theorem bounds_of_increasing {f : Word → F32} {top : F32} (zero : f 0 = 0) (last : f 0xFFFF = top) (first : 2 ^ 23 ≤ units (f 1))
    (holds : ∀ a, ∃ u, HoldsUnits (f a) u) (increasing : ∀ a b : Word, a < b → units (f a) < units (f b)) :
    f 0 = 0 ∧ f 0xFFFF = top ∧
    (∀ a : Word, (f a).msb = false ∧ isFinite (f a) = true ∧ (a ≠ 0 → 1 ≤ expField (f a)) ∧ (f a).toNat ≤ top.toNat) ∧
    ∀ a b : Word, a < b → units (f a) < units (f b) := by
  have hmono {a b : Word} (h : a ≤ b) : units (f a) ≤ units (f b) := by
    obtain rfl | hne := eq_or_ne a b
    · exact Nat.le_refl _
    · exact (increasing a b (by bv_omega)).le
  refine ⟨zero, last, fun a => ?_, increasing⟩
  obtain ⟨u, hu⟩ := holds a
  obtain ⟨v, hv⟩ := holds 0xFFFF
  refine ⟨hu.msb, hu.finite, fun h0 => normal_of_le_units (first.trans (hmono (by bv_omega))), ?_⟩
  by_contra! hlt
  rw [← last] at hlt
  have hgreater : units (f 0xFFFF) < units (f a) := units_lt_units hv.msb hu.msb hlt
  have hle : units (f a) ≤ units (f 0xFFFF) := hmono (by bv_omega)
  omega

/-- Settles O15: one rounding of an increasing product, for each of the three table entries. -/
theorem scaleResultsAreBoundedAndIncreasing : Obligations.ScaleResultsAreBoundedAndIncreasing := by
  have hscale {fs : F32} {c : Nat} (hfs : IsScaleConstant fs c) (a : Word) : ∃ u, HoldsUnits (scale a fs) u :=
    (exists_holdsUnits_scale a hfs).imp fun _ h => h.1
  intro f hf
  simp only [List.mem_cons, List.not_mem_nil, or_false] at hf
  obtain rfl | rfl | rfl := hf
  · exact bounds_of_increasing (by decide) (by decide) (by decide) (hscale isScaleConstant_fsVolt)
      fun a b => scale_increasing a b isScaleConstant_fsVolt
  · exact bounds_of_increasing (by decide) (by decide) (by decide) (hscale isScaleConstant_fsCurr)
      fun a b => scale_increasing a b isScaleConstant_fsCurr
  · exact bounds_of_increasing (by decide) (by decide) (by decide) (fun a => ⟨_, holdsUnits_product a isScaleConstant_ahStep⟩)
      fun a b => product_increasing a b isScaleConstant_ahStep

/-! ## The other order (R78) -/

/-- Settles O16, for each of the two full-scale constants. -/
theorem dividingFirstGivesTheSameBits : Obligations.DividingFirstGivesTheSameBits := by
  intro a fs hfs
  simp only [List.mem_cons, List.not_mem_nil, or_false] at hfs
  obtain rfl | rfl := hfs
  · exact fmul_fdiv_eq_scale a isScaleConstant_fsVolt
  · exact fmul_fdiv_eq_scale a isScaleConstant_fsCurr

end Sys2Proof.Machine

/-! PROOFS. The three operations on FaultSets, from the command word to the response (30_encoding.md R51; 42_fault_extractor.md
R92-R94). -/

namespace Sys2Proof.Machine

/-! ## The flags of a FaultSet -/

@[simp] theorem faultFlag_or (a b : FaultSet) (n : Fin 9) : faultFlag (a ||| b) n = (faultFlag a n || faultFlag b n) :=
  BitVec.getLsbD_or

@[simp] theorem faultFlag_and (a b : FaultSet) (n : Fin 9) : faultFlag (a &&& b) n = (faultFlag a n && faultFlag b n) :=
  BitVec.getLsbD_and

/-- A FaultSet is nothing but its nine flags (R94). -/
theorem faultSet_eq_iff {a b : FaultSet} : a = b ↔ ∀ n : Fin 9, faultFlag a n = faultFlag b n := by
  refine ⟨fun h _ => h ▸ rfl, fun h => BitVec.eq_of_getLsbD_eq fun i hi => ?_⟩
  exact h ⟨i, hi⟩

/-! ## FS_UNION, FS_INTER and FS_EQ -/

/-- Operation codes 0x6 to 0x8 read both operands through `faultSetField`, which drops bits 15:9 (R51, R92). -/
theorem decode_faultSetOperations (a b : Word) :
    decode ⟨packCmd 0x6 b a, []⟩ = .ok (.fsUnion (faultSetField a) (faultSetField b)) ∧
    decode ⟨packCmd 0x7 b a, []⟩ = .ok (.fsInter (faultSetField a) (faultSetField b)) ∧
    decode ⟨packCmd 0x8 b a, []⟩ = .ok (.fsEq (faultSetField a) (faultSetField b)) := by
  refine ⟨?_, ?_, ?_⟩ <;> simp [decode, withoutBuffer_ok]

/-- Settles O21: bitwise or, bitwise and and equality of nine bits, taken flag by flag. -/
theorem faultSetOperationsAreFlagwise : Obligations.FaultSetOperationsAreFlagwise := by
  refine ⟨fun a b s => ⟨a ||| b, exec_of_pureResponse rfl s, faultFlag_or a b⟩,
    fun a b s => ⟨a &&& b, exec_of_pureResponse rfl s, faultFlag_and a b⟩,
    fun a b s => ⟨a == b, exec_of_pureResponse rfl s, beq_iff_eq.trans faultSet_eq_iff⟩,
    fun a b => ⟨faultSetField a, faultSetField b, ?_, ?_, decode_faultSetOperations a b⟩⟩
  · exact faultSetField_getLsbD a
  · exact faultSetField_getLsbD b

end Sys2Proof.Machine

/-! PROOFS. DEC_STATUS: its one response by the decoding of its buffer, the snapshot field by field, the order of its errors, and
the eleven words it reads (43_status_decoder.md R100-R103; 60_exceptions.md R172). -/

namespace Sys2Proof.Machine

/-! ## The response, by the decoding of the buffer -/

section
variable {buf : Buffer 44}

theorem exec_decStatus_of_ok {x : StatusSnapshot} (h : decodeStatus buf = .ok x) (s : State) :
    exec (.decStatus buf) s = .next (s.responding (.ok (.snapshot x))) :=
  exec_of_pureResponse (by simp [pureResponse, h]) s

theorem exec_decStatus_of_error {e : ErrorResponse} (h : decodeStatus buf = .error e) (s : State) :
    exec (.decStatus buf) s = .next (s.responding (.err e)) :=
  exec_of_pureResponse (by simp [pureResponse, h]) s

end

/-! ## The snapshot (R100) -/

section
variable {raw : Word}

theorem temperatureField_eq_setWidth : temperatureField raw = raw.setWidth 8 :=
  (BitVec.setWidth_eq_extractLsb' (by decide)).symm

theorem exists_decodeState_eq_ok (h : raw.toNat ≤ 8) : ∃ st, decodeState raw = .ok st ∧ st.number.toNat = raw.toNat :=
  ((decodeState_cases raw).resolve_right fun ⟨hillegal, _⟩ => Nat.not_le.2 hillegal h).2

theorem decodeFault_eq_ok (h : raw &&& 0xFE00 = 0) : decodeFault raw = .ok (faultSetField raw) :=
  ((decodeFault_cases raw).resolve_right fun ⟨hillegal, _⟩ => hillegal h).2

end

/-- Settles O22: both closed-set decoders accept their words, and the units of the other nine fields have no failure. -/
theorem decStatusReadsElevenFields : Obligations.DecStatusReadsElevenFields := by
  intro buf s w h9 h10
  have hw (k : Fin 44) : bufferWord buf k = w k := bufferWord_eq_getD buf k
  have htemp (k : Fin 44) : temperatureField (bufferWord buf k) = (w k).setWidth 8 := by rw [hw, temperatureField_eq_setWidth]
  obtain ⟨st, hst, hnumber⟩ := exists_decodeState_eq_ok h9
  have hstate : decodeState (bufferWord buf 9) = .ok st := (congrArg decodeState (hw 9)).trans hst
  have hfaults : decodeFault (bufferWord buf 10) = .ok (faultSetField (w 10)) :=
    (congrArg decodeFault (hw 10)).trans (decodeFault_eq_ok h10)
  refine ⟨_, exec_decStatus_of_ok (by simp only [decodeStatus, hstate, hfaults]; rfl) s, ?_⟩
  exact ⟨congrArg scaleVolt (hw 0), congrArg scaleVolt (hw 1), congrArg scaleVolt (hw 2), congrArg scaleCurr (hw 3),
    congrArg scaleCurr (hw 4), htemp 5, htemp 6, htemp 7, htemp 8, hnumber, faultSetField_getLsbD (w 10)⟩

/-! ## The errors (R101, R102) -/

/-- Settles O23, by the three outcomes of the decoding. -/
theorem decStatusReportsStateErrorFirst : Obligations.DecStatusReportsStateErrorFirst := by
  intro buf s w
  have h9 : bufferWord buf 9 = w 9 := bufferWord_eq_getD buf 9
  have h10 : bufferWord buf 10 = w 10 := bufferWord_eq_getD buf 10
  rw [← h9, ← h10]
  obtain ⟨hstate, e⟩ | ⟨hstate, hfault, e⟩ | ⟨x, hstate, hfault, -⟩ := decodeStatus_cases buf
  · exact ⟨fun _ => exec_decStatus_of_error e s, fun h => by omega⟩
  · exact ⟨fun h => by omega, fun _ _ => exec_decStatus_of_error e s⟩
  · exact ⟨fun h => by omega, fun _ h => absurd hfault h⟩

/-- Settles O24: a bad state word gives UnknownState, and a bad fault word beside a legal one UnknownFaultBits. -/
theorem decStatusIsAllOrNothing : Obligations.DecStatusIsAllOrNothing := by
  intro buf s h
  obtain ⟨hstate, hfault⟩ := decStatusReportsStateErrorFirst buf s
  obtain h9 | h9 := Nat.lt_or_ge 8 (buf.words.getD 9 0).toNat
  · exact ⟨_, hstate h9, by simp [Response.status], rfl⟩
  · exact ⟨_, hfault h9 (h.resolve_left (by omega)), by simp [Response.status], rfl⟩

/-! ## The words it reads (R103) -/

theorem decodeStatus_congr {b b' : Buffer 44} (h : ∀ k : Fin 44, k ≤ 10 → bufferWord b k = bufferWord b' k) :
    decodeStatus b = decodeStatus b' := by
  simp [decodeStatus, h]

/-- Settles O25: the decoding reads words 0 to 10 and no other. -/
theorem decStatusIgnoresOffsetsFromEleven : Obligations.DecStatusIgnoresOffsetsFromEleven := by
  intro b b' s h
  have hdecode : decodeStatus b = decodeStatus b' := decodeStatus_congr fun k hk => bufferWord_congr k (h k hk)
  simp only [exec, execDecStatus, hdecode]

end Sys2Proof.Machine

/-! PROOFS. DEC_LOGDAY: its two packed fields as numbers, what a record holds, and the words the unit reads (44_log_unpacker.md
R110-R117). -/

namespace Sys2Proof.Machine

/-! ## The hourmeter (R111) -/

theorem hourmeterField_toNat (w0 w1 : Word) :
    (hourmeterField w0 w1).toNat = w1.toNat / 256 * 65536 + w0.toNat % 256 * 256 + w0.toNat / 256 := by
  rw [hourmeterField_eq_bytes, toNat_append_byte, toNat_append_byte, hiByte_toNat, loByte_toNat, hiByte_toNat]
  omega

/-- The cleared least significant byte becomes the most significant one. -/
theorem bswap32_lowByteCleared_lt (v : BitVec 32) : (bswap32 (v &&& 0xFFFFFF00)).toNat < 2 ^ 24 := by
  have hlow : (v &&& 0xFFFFFF00).toNat % 2 ^ 8 = 0 := by
    rw [BitVec.toNat_and, Nat.and_mod_two_pow]
    exact Nat.and_zero _
  have hv := (v &&& 0xFFFFFF00).isLt
  rw [bswap32_toNat]
  omega

/-- The 24 bits of the field lose nothing of the reversed value. -/
theorem setWidth_hourmeterField (w0 w1 : Word) :
    (hourmeterField w0 w1).setWidth 32 = bswap32 ((w0 ++ w1) &&& 0xFFFFFF00) := by
  rw [hourmeterField, joinWords_eq_append]
  apply BitVec.eq_of_toNat_eq
  have htop := bswap32_lowByteCleared_lt (w0 ++ w1)
  rw [BitVec.toNat_setWidth, BitVec.toNat_setWidth, Nat.mod_eq_of_lt htop, Nat.mod_eq_of_lt (BitVec.isLt _)]

/-- Settles O26: the masked join keeps three bytes, and reversed they are the number. -/
theorem hourmeterReassemblesThreeBytes : Obligations.HourmeterReassemblesThreeBytes :=
  fun w0 w1 => ⟨setWidth_hourmeterField w0 w1, hourmeterField_toNat w0 w1⟩

/-! ## The alarm (R113) -/

theorem alarmField_toNat (w1 w2 : Word) :
    (alarmField w1 w2).toNat = w2.toNat % 256 * 16777216 + w2.toNat / 256 * 65536 + w1.toNat % 256 * 256 := by
  rw [alarmField_eq_bytes, toNat_append_byte, toNat_append_byte, toNat_append_byte, loByte_toNat, hiByte_toNat, loByte_toNat]
  have hzero : (0 : BitVec 8).toNat = 0 := rfl
  omega

/-- All but the low byte, which holds no bit of the slot. -/
theorem alarmSignificant_toNat (alarm : AlarmDaily) : (alarmSignificant alarm).toNat = alarm.toNat / 256 := by
  have h := alarm.isLt
  rw [alarmSignificant, BitVec.extractLsb'_toNat, Nat.shiftRight_eq_div_pow]
  omega

/-! ## The record (R110, R115, R116) -/

theorem isSentinel_eq_false_iff (h : Hourmeter) : isSentinel h = false ↔ h ≠ 0x000000 ∧ h ≠ 0xFFFFFF := by
  simp [isSentinel]

/-- A record comes from a slot that is no sentinel, and each of its fields from that field's words. -/
theorem decodeLogDay_eq_some {slot : Buffer 16} {r : LogDayRecord} (h : decodeLogDay slot = some r) :
    isSentinel r.hourmeter = false ∧
    r = { hourmeter := hourmeterField (bufferWord slot 0) (bufferWord slot 1)
          alarmDaily := alarmField (bufferWord slot 1) (bufferWord slot 2)
          batteryVoltageMin := scaleVolt (bufferWord slot 3)
          batteryVoltageMax := scaleVolt (bufferWord slot 4)
          batteryChargeDaily := scaleAmpHours (bufferWord slot 5)
          loadChargeDaily := scaleAmpHours (bufferWord slot 6)
          arrayVoltageMax := scaleVolt (bufferWord slot 9) } := by
  simp only [decodeLogDay] at h
  split at h
  case isTrue => cases h
  case isFalse hused =>
    cases h
    exact ⟨Bool.eq_false_iff.2 hused, rfl⟩

theorem exists_decodeLogDay_eq_some {slot : Buffer 16}
    (h : isSentinel (hourmeterField (bufferWord slot 0) (bufferWord slot 1)) = false) : ∃ r, decodeLogDay slot = some r := by
  rw [← Option.isSome_iff_exists, decodeLogDay_isSome, h]
  rfl

/-- Settles O29: the record's alarm is the field's value, and only a slot that is no sentinel gives a record. -/
theorem recordsHoldTheLiteralAlarm : Obligations.RecordsHoldTheLiteralAlarm := by
  intro slot r hr w
  obtain ⟨hused, hfields⟩ := decodeLogDay_eq_some hr
  have halarm : r.alarmDaily.toNat = (w 2).toNat % 256 * 16777216 + (w 2).toNat / 256 * 65536 + (w 1).toNat % 256 * 256 := by
    rw [hfields, alarmField_toNat, bufferWord_eq_getD, bufferWord_eq_getD]
    rfl
  refine ⟨halarm, ?_, (isSentinel_eq_false_iff _).1 hused⟩
  rw [alarmSignificant_toNat, halarm]
  omega

/-- Settles O27: the hourmeter of the slot is no sentinel, so there is a record, and its fields are the decoded ones. -/
theorem decLogdayReassemblesUsedSlots : Obligations.DecLogdayReassemblesUsedSlots := by
  intro slot s w hours hzero hones
  have hw (k : Fin 16) : bufferWord slot k = w k := bufferWord_eq_getD slot k
  have hhours : (hourmeterField (bufferWord slot 0) (bufferWord slot 1)).toNat = hours := by
    rw [hourmeterField_toNat, hw, hw]
    rfl
  have hused : isSentinel (hourmeterField (bufferWord slot 0) (bufferWord slot 1)) = false := by
    rw [isSentinel_eq_false_iff, ← BitVec.toNat_ne_iff_ne, ← BitVec.toNat_ne_iff_ne, hhours]
    exact ⟨hzero, hones⟩
  obtain ⟨r, hr⟩ := exists_decodeLogDay_eq_some hused
  obtain ⟨halarm, -⟩ := recordsHoldTheLiteralAlarm slot r hr
  refine ⟨r, exec_of_pureResponse (by rw [pureResponse, hr]) s, ?_⟩
  obtain ⟨-, rfl⟩ := decodeLogDay_eq_some hr
  exact ⟨hhours, halarm, congrArg scaleVolt (hw 3), congrArg scaleVolt (hw 4), congrArg scaleAmpHours (hw 5),
    congrArg scaleAmpHours (hw 6), congrArg scaleVolt (hw 9)⟩

/-! ## The words it reads (R115) -/

theorem decodeLogDay_congr {b b' : Buffer 16} (h : ∀ k : Fin 16, k ≤ 6 ∨ k = 9 → bufferWord b k = bufferWord b' k) :
    decodeLogDay b = decodeLogDay b' := by
  simp [decodeLogDay, h]

/-- Settles O30: the unit reads words 0 to 6 and 9 and no other. -/
theorem decLogdayIgnoresUnreadWords : Obligations.DecLogdayIgnoresUnreadWords := by
  intro b b' s h
  have hdecode : decodeLogDay b = decodeLogDay b' :=
    decodeLogDay_congr fun k hk => bufferWord_congr k (h k (hk.imp_right (congrArg Fin.val)))
  simp only [exec, execDecLogday, hdecode]

end Sys2Proof.Machine

/-! PROOFS. BUILD_LOG: what the stable sort and the dropping of the sentinel slots do to the records (45_log_collection.md R130-R133). -/

namespace Sys2Proof.Machine

/-! ## The sort (R131) -/

theorem sortByHourmeter_perm (rs : List LogDayRecord) : (sortByHourmeter rs).Perm rs := by
  induction rs with
  | nil => exact .refl _
  | cons r rest ih => exact (insertByHourmeter_perm r _).trans (ih.cons r)

theorem sortByHourmeter_sorted (rs : List LogDayRecord) :
    (sortByHourmeter rs).Pairwise fun p q => p.hourmeter.toNat ≤ q.hourmeter.toNat := by
  induction rs with
  | nil => exact .nil
  | cons r rest ih => exact insertByHourmeter_sorted r _ ih

/-- Stability: the records of one hourmeter stay in their order (D13). -/
theorem sortByHourmeter_filter (rs : List LogDayRecord) (h : Hourmeter) :
    (sortByHourmeter rs).filter (fun r => r.hourmeter == h) = rs.filter (fun r => r.hourmeter == h) := by
  induction rs with
  | nil => rfl
  | cons r rest ih => simp only [sortByHourmeter, insertByHourmeter_filter, List.filter_cons, ih]

/-! ## The slots and their records (R130, R132) -/

theorem logSlot_words_getElem? (buf : Buffer 512) (i : Fin 32) (j : Fin 16) :
    (logSlot buf i).words[(j : Nat)]? = buf.words[16 * (i : Nat) + (j : Nat)]? := by
  rw [logSlot, List.getElem?_take_of_lt j.isLt, List.getElem?_drop]

theorem keptRecords_eq_filterMap (buf : Buffer 512) :
    keptRecords buf = (List.finRange 32).filterMap (fun i => decodeLogDay (logSlot buf i)) :=
  List.filterMap_map

theorem exec_buildLog (buf : Buffer 512) (s : State) :
    exec (.buildLog buf) s = .next (s.responding (.ok (.logCollection (logCollection buf)))) :=
  exec_of_pureResponse rfl s

/-- Settles O32: the collection is the sorted list of the kept records. -/
theorem buildLogSortsKeptRecordsStably : Obligations.BuildLogSortsKeptRecordsStably := fun buf s =>
  ⟨logCollection buf, keptRecords buf, exec_buildLog buf s, keptRecords_eq_filterMap buf, logSlot_words_getElem? buf,
    sortByHourmeter_perm _, sortByHourmeter_sorted _, sortByHourmeter_filter _⟩

/-! ## The number of records (R132, R133) -/

/-- The sort keeps the number of records, and a slot gives one exactly when it is no sentinel. -/
theorem length_logCollection (buf : Buffer 512) :
    (logCollection buf).length = (List.finRange 32).countP (fun i =>
      !isSentinel (hourmeterField (bufferWord (logSlot buf i) 0) (bufferWord (logSlot buf i) 1))) := by
  rw [logCollection, (sortByHourmeter_perm _).length_eq, keptRecords_eq_filterMap, List.length_filterMap_eq_countP]
  simp only [decodeLogDay_isSome]

theorem length_logCollection_le (buf : Buffer 512) : (logCollection buf).length ≤ 32 := by
  rw [length_logCollection]
  exact List.countP_le_length.trans_eq List.length_finRange

theorem logCollection_eq_nil {buf : Buffer 512}
    (h : ∀ i, isSentinel (hourmeterField (bufferWord (logSlot buf i) 0) (bufferWord (logSlot buf i) 1)) = true) :
    logCollection buf = [] := by
  rw [← List.length_eq_zero_iff, length_logCollection, List.countP_eq_zero]
  intro i _
  simp [h i]

theorem bufferWord_logSlot_of_replicate {buf : Buffer 512} {w : Word} (h : buf.words = List.replicate 512 w)
    (i : Fin 32) (j : Fin 16) : bufferWord (logSlot buf i) j = w := by
  rw [bufferWord_logSlot, h, List.getD_replicate]
  omega

/-- Settles O33: a slot of equal words 0x0000 or 0xFFFF holds a sentinel, so an unused buffer keeps no record. -/
theorem buildLogDropsExactlyTheSentinels : Obligations.BuildLogDropsExactlyTheSentinels := by
  refine fun buf s => ⟨_, exec_buildLog buf s, length_logCollection buf, length_logCollection_le buf, fun h => ?_⟩
  refine logCollection_eq_nil fun i => ?_
  obtain hzero | hones := h
  · rw [bufferWord_logSlot_of_replicate hzero, bufferWord_logSlot_of_replicate hzero]
    exact isSentinel_hourmeterField (.inl ⟨rfl, rfl⟩)
  · rw [bufferWord_logSlot_of_replicate hones, bufferWord_logSlot_of_replicate hones]
    exact isSentinel_hourmeterField (.inr ⟨rfl, rfl⟩)

end Sys2Proof.Machine

/-! PROOFS. The block reader's state machine move by move: the start of a read, the answer to an attempt, the reader's own action, and
that nothing else moves a read; the block lists and the responses of the three reads (46_block_reader.md R141-R152). -/

namespace Sys2Proof.Machine

variable {s t : State} {j : Job} {m : Move} {rest : List Move}

/-! ## The block lists (R145, R150) -/

theorem log_blocks_getElem? {i : Nat} (hi : i < 32) :
    ReadKind.log.blocks[i]? = some ⟨BitVec.ofNat 16 (0x8000 + 16 * i), 16⟩ := by
  simp [ReadKind.blocks, hi]

/-- Settles O36: the two fixed lists by evaluation, the log read's block by block. -/
theorem blockListsAreTheFixedOnes : Obligations.BlockListsAreTheFixedOnes := by
  refine ⟨rfl, rfl, fun i hi => ⟨_, log_blocks_getElem? hi, ?_, rfl⟩, fun _ _ => rfl, status_words, log_words⟩
  exact (BitVec.toNat_ofNat _ _).trans (Nat.mod_eq_of_lt (by omega))

/-! ## The start of a read (R37, R142, R143) -/

/-- Settles O37: with the connection open and the lock to be had, `startRead` begins the read. -/
theorem readerOperationTakesTheFreeLock : Obligations.ReaderOperationTakesTheFreeLock := by
  intro i kind s reads opened free idle
  rw [exec_of_readKindOf reads, startRead_eq, if_neg (by simp [opened]), if_pos ⟨free, idle⟩]
  rfl

/-! ## The moves of a read, by their premises -/

theorem step_answer_failed {a : Answer} {b : Block} (agenda : s.agenda = .answer a :: rest) (attempting : s.phase = .attempting)
    (notWaiting : s.waiting = false) (job : s.job = some j) (block : j.kind.blocks[s.k]? = some b)
    (fails : a.wordsOf b.count = none) :
    step s = .next (attemptFailed (({ s with agenda := rest } : State).record (.memRead j.caller b.addr b.count a))) := by
  simp [step_cons agenda, makeMove, transportAnswers, attempting, notWaiting, job, block, fails]

theorem step_reader_waiting (agenda : s.agenda = .reader :: rest) (attempting : s.phase = .attempting) (waiting : s.waiting = true)
    (job : s.job = some j) : step s = .next ((({ s with agenda := rest } : State).record (.waited j.caller)).endWait) := by
  simp [step_cons agenda, makeMove, readerActs, attempting, waiting, job]

theorem step_reader_exhausted {b : Block} (agenda : s.agenda = .reader :: rest) (exhausted : s.phase = .exhausted)
    (job : s.job = some j) (block : j.kind.blocks[s.k]? = some b) :
    step s = .next (({ s with agenda := rest } : State).endRead.answerTo j.caller (.err (.transportError b.addr))) := by
  simp [step_cons agenda, makeMove, readerActs, exhausted, job, block]

/-- Settles O40: a success goes by whether a block is left, a failure by whether an attempt is left. -/
theorem answersDriveTheStateMachine : Obligations.AnswersDriveTheStateMachine := by
  intro s a rest j b agenda attempting notWaiting job block u
  refine ⟨?_, ?_, ?_, ?_⟩
  · rintro ws rfl length hmore
    exact (step_answer_ok agenda attempting notWaiting job block length).trans (congrArg _ (if_pos hmore))
  · rintro ws rfl length hlast
    exact (step_answer_ok agenda attempting notWaiting job block length).trans (congrArg _ (if_neg (Nat.not_lt.2 hlast)))
  · intro hfails hleft
    have failed := step_answer_failed agenda attempting notWaiting job block (wordsOf_eq_none_iff.2 hfails)
    exact failed.trans (congrArg _ (if_pos hleft))
  · intro hfails hthird
    have failed := step_answer_failed agenda attempting notWaiting job block (wordsOf_eq_none_iff.2 hfails)
    exact failed.trans (congrArg _ (if_neg (Nat.not_lt.2 hthird)))

/-- Settles O41, phase by phase. -/
theorem readerActionsEndWaitsAndReads : Obligations.ReaderActionsEndWaitsAndReads := by
  intro s rest j agenda job
  exact ⟨fun attempting waiting => step_reader_waiting agenda attempting waiting job,
    fun resp success decoded => step_reader_success agenda success job decoded,
    fun b exhausted block => step_reader_exhausted agenda exhausted job block⟩

/-! ## A read in Attempting stands still (R151, R152) -/

/-- A move that keeps a read in Attempting where it is: neither the answer to its attempt nor the end of its wait. -/
theorem reader_unchanged_of_stepEffect (h : StepEffect s { s with agenda := rest } m t) (attempting : s.phase = .attempting)
    (notAnswer : s.waiting = false → ∀ a, m ≠ .answer a) (notReader : s.waiting = true → m ≠ .reader) :
    t.lock = s.lock ∧ t.phase = s.phase ∧ t.job = s.job ∧ t.k = s.k ∧ t.attempt = s.attempt ∧ t.asm = s.asm ∧
      t.waiting = s.waiting ∧ t.history = s.history := by
  cases h with
  | nothing | answered | queued | connected => exact ⟨rfl, rfl, rfl, rfl, rfl, rfl, rfl, rfl⟩
  | started _ _ _ _ _ idle | acquired _ _ _ idle => simp [attempting] at idle
  | attemptOk a _ _ _ _ notWaiting | attemptErr a _ _ _ notWaiting => exact absurd rfl (notAnswer notWaiting a)
  | waitEnded _ _ waiting => exact absurd rfl (notReader waiting)
  | readDone _ _ success => simp [attempting] at success
  | readFailed _ _ exhausted => simp [attempting] at exhausted

/-- Settles O51, by the inversion of `step`. -/
theorem readerStandsStillUntilAnswered : Obligations.ReaderStandsStillUntilAnswered := by
  intro s t m rest agenda attempting notAnswer notReader h
  obtain ⟨hnil, -⟩ | ⟨m', rest', hcons, heff⟩ := step_effect h
  · simp [agenda] at hnil
  · obtain ⟨rfl, rfl⟩ := List.cons.inj (agenda.symm.trans hcons)
    exact reader_unchanged_of_stepEffect heff attempting notAnswer notReader

/-! ## The response of a successful read (R148-R150) -/

theorem readResponse_status (buf : Buffer 44) : readResponse .status buf.words = pureResponse (.decStatus buf) := by
  rw [readResponse, asBuffer_of_length buf.length_words]
  rfl

theorem readResponse_log (buf : Buffer 512) : readResponse .log buf.words = pureResponse (.buildLog buf) := by
  rw [readResponse, asBuffer_of_length buf.length_words]
  rfl

/-- Settles O42: a read's response is the pure operation's on the same words. -/
theorem successfulReadsAnswerAsTheDecoders : Obligations.SuccessfulReadsAnswerAsTheDecoders :=
  ⟨fun buf s => ⟨_, readResponse_status buf, exec_of_pureResponse rfl s⟩,
    fun buf s => ⟨_, readResponse_log buf, exec_of_pureResponse rfl s⟩, fun _ _ _ => rfl⟩

end Sys2Proof.Machine

/-! PROOFS. The procedures `read_block_with_retry` and `logical_read`: what they give for each answer, and how the answers they use
divide into failed attempts and the one that decides a block (46_block_reader.md R142, R144, R147, R155). -/

namespace Sys2Proof.Machine

variable {n left waits : Nat} {answers rest : List Answer}

/-! ## One block (R144) -/

theorem readBlockWithRetry_nil (n left : Nat) : readBlockWithRetry n (left + 1) [] = none := rfl

theorem readBlockWithRetry_of_ok {a : Answer} {ws : List Word} (h : a.wordsOf n = some ws) (left : Nat) (rest : List Answer) :
    readBlockWithRetry n (left + 1) (a :: rest) = some (some ws, 0, rest) := by
  rw [readBlockWithRetry, h]

/-- The last attempt's failure decides the block, without a wait. -/
theorem readBlockWithRetry_one_of_failed {a : Answer} (h : a.wordsOf n = none) (rest : List Answer) :
    readBlockWithRetry n 1 (a :: rest) = some (none, 0, rest) := by
  simp [readBlockWithRetry, h]

/-- Any other attempt's failure costs a wait and leaves the block to the attempts left. -/
theorem readBlockWithRetry_of_failed {a : Answer} (h : a.wordsOf n = none) (left : Nat) (rest : List Answer) :
    readBlockWithRetry n (left + 2) (a :: rest) =
      (readBlockWithRetry n (left + 1) rest).map fun (r, waits, rest') => (r, waits + 1, rest') := by
  rw [readBlockWithRetry, h]
  cases readBlockWithRetry n (left + 1) rest <;> rfl

/-- Settles O43: answer by answer, each failure before the third costs a wait. -/
theorem blockReadTriesThreeTimes : Obligations.BlockReadTriesThreeTimes := by
  intro n bad bad' bad'' ws rest hbad length
  have hfails : ∀ a ∈ [bad, bad', bad''], a.wordsOf n = none := fun a ha => wordsOf_eq_none_iff.2 (hbad a ha)
  have h := hfails bad (by simp)
  have h' := hfails bad' (by simp)
  have h'' := hfails bad'' (by simp)
  have hok : (Answer.ok ws).wordsOf n = some ws := wordsOf_eq_some_iff.2 ⟨rfl, length⟩
  simp [readBlockWithRetry_nil, readBlockWithRetry_of_ok hok, readBlockWithRetry_of_failed h, readBlockWithRetry_of_failed h',
    readBlockWithRetry_one_of_failed h'']

/-- The inversion of `read_block_with_retry`: failed attempts, as many as waits, then the answer that decides; a failure decides only
when no attempt is left. -/
theorem readBlockWithRetry_eq_some {r : Option (List Word)} (h : readBlockWithRetry n (left + 1) answers = some (r, waits, rest)) :
    ∃ (failed : List Answer) (last : Answer), answers = failed ++ last :: rest ∧ (∀ a ∈ failed, a.wordsOf n = none) ∧
      last.wordsOf n = r ∧ waits = failed.length ∧ failed.length ≤ left ∧ (r = none → failed.length = left) := by
  induction answers generalizing left waits with
  | nil => simp [readBlockWithRetry_nil] at h
  | cons a more ih =>
    cases ha : a.wordsOf n with
    | some ws =>
      rw [readBlockWithRetry_of_ok ha] at h
      cases h
      exact ⟨[], a, rfl, by simp, ha, rfl, Nat.zero_le _, nofun⟩
    | none =>
      cases left with
      | zero =>
        rw [readBlockWithRetry_one_of_failed ha] at h
        cases h
        exact ⟨[], a, rfl, by simp, ha, rfl, Nat.le_refl 0, fun _ => rfl⟩
      | succ left =>
        rw [readBlockWithRetry_of_failed ha, Option.map_eq_some_iff] at h
        obtain ⟨⟨_, _, _⟩, hmore, ⟨⟩⟩ := h
        obtain ⟨failed, last, rfl, hfailed, hlast, rfl, hle, hnone⟩ := ih hmore
        exact ⟨a :: failed, last, rfl, by simpa [ha] using hfailed, hlast, rfl, by simpa using hle, by simpa using hnone⟩

/-! ## A logical read (R142) -/

/-- `LogicalReadTrace blocks answers out waits rest`: how a logical read of `blocks` comes to `out` after `waits` waits and leaves
`rest` of `answers`. -/
inductive LogicalReadTrace : List Block → List Answer → Except Word (List Word) → Nat → List Answer → Prop
  /-- No block is left. -/
  | done (rest : List Answer) : LogicalReadTrace [] rest (.ok []) 0 rest
  /-- The third attempt of a block fails. -/
  | exhausted (b : Block) (bs : List Block) (failed : List Answer) (last : Answer) (rest : List Answer)
      (fails : ∀ a ∈ failed, a.wordsOf b.count = none) (two : failed.length = 2) (lastFails : last.wordsOf b.count = none) :
      LogicalReadTrace (b :: bs) (failed ++ last :: rest) (.error b.addr) failed.length rest
  /-- One of the attempts of a block succeeds, and the read goes on with the next block. -/
  | blockRead (b : Block) (bs : List Block) (failed : List Answer) (ws : List Word) (more : List Answer)
      (out : Except Word (List Word)) (waits : Nat) (rest : List Answer)
      (fails : ∀ a ∈ failed, a.wordsOf b.count = none) (atMostTwo : failed.length ≤ 2) (length : ws.length = b.count)
      (tail : LogicalReadTrace bs more out waits rest) :
      LogicalReadTrace (b :: bs) (failed ++ .ok ws :: more) (out.map (ws ++ ·)) (failed.length + waits) rest

/-- After a block's success the read is the read of the blocks left. -/
theorem logicalRead_cons_of_some {b : Block} {ws : List Word} (bs : List Block) {more : List Answer}
    (h : readBlockWithRetry b.count Config.maxAttempts answers = some (some ws, waits, more)) :
    logicalRead (b :: bs) answers =
      (logicalRead bs more).map fun (out, waits', rest) => (out.map (ws ++ ·), waits + waits', rest) := by
  simp only [logicalRead, h]
  obtain _ | ⟨_ | _, _, _⟩ := logicalRead bs more <;> rfl

/-- The inversion of `logical_read`, by induction on the blocks. -/
theorem logicalReadTrace_of_eq_some {blocks : List Block} {out : Except Word (List Word)}
    (h : logicalRead blocks answers = some (out, waits, rest)) : LogicalReadTrace blocks answers out waits rest := by
  induction blocks generalizing answers out waits with
  | nil =>
    cases h
    exact .done rest
  | cons b bs ih =>
    cases hb : readBlockWithRetry b.count Config.maxAttempts answers with
    | none => simp [logicalRead, hb] at h
    | some res =>
      obtain ⟨r, blockWaits, more⟩ := res
      obtain ⟨failed, last, rfl, hfails, hlast, rfl, hle, hnone⟩ := readBlockWithRetry_eq_some hb
      cases r with
      | none =>
        simp only [logicalRead, hb, Option.some.injEq, Prod.mk.injEq] at h
        obtain ⟨rfl, rfl, rfl⟩ := h
        exact .exhausted b bs failed last more hfails (hnone rfl) hlast
      | some ws =>
        rw [logicalRead_cons_of_some bs hb, Option.map_eq_some_iff] at h
        obtain ⟨⟨out', waits', _⟩, hmore, ⟨⟩⟩ := h
        obtain ⟨rfl, length⟩ := wordsOf_eq_some_iff.1 hlast
        exact .blockRead b bs failed ws more out' waits' rest hfails hle length (ih hmore)

theorem wordsOfBlocks_cons (b : Block) (bs : List Block) :
    wordsOfBlocks (b :: bs) (bs.length + 1) = b.count + wordsOfBlocks bs bs.length := by
  simp [wordsOfBlocks]

/-- Settles O44, by induction on the trace: a block uses its failed attempts and the one that decides it. -/
theorem logicalReadAttemptsAreBounded : Obligations.LogicalReadAttemptsAreBounded := by
  intro blocks answers out waits rest h
  replace h := logicalReadTrace_of_eq_some h
  induction h with
  | done rest => exact ⟨[], rfl, by simp [wordsOfBlocks_zero]⟩
  | exhausted b bs failed last rest _ two => exact ⟨failed ++ [last], by simp, 0, b, by simp [two]⟩
  | blockRead b bs failed ws more out waits rest _ atMostTwo length _ ih =>
    obtain ⟨used, rfl, hout⟩ := ih
    refine ⟨failed ++ .ok ws :: used, by simp, ?_⟩
    cases out with
    | ok words =>
      obtain ⟨hge, hle, hwaits, hwords⟩ := hout
      simp only [Except.map, List.length_append, List.length_cons, wordsOfBlocks_cons, length, hwords, and_true]
      omega
    | error addr =>
      obtain ⟨k, b', hk, haddr, hge, hle, hwaits⟩ := hout
      refine ⟨k + 1, b', by simpa using hk, haddr, ?_⟩
      simp only [List.length_append, List.length_cons]
      omega

end Sys2Proof.Machine

/-! PROOFS. The state machine refines `logical_read`: a block's failed attempts and the waits after them, the three ways a block ends,
and so by induction on the trace of the procedure the whole read, from the operation to its response (46_block_reader.md R142, R144,
R147-R150, R155). -/

namespace Sys2Proof.Machine

variable {s : State} {j : Job} {b : Block} {c : Caller} {rest : List Move}

/-! ## What a read adds to the history (R25) -/

/-- `h` holds so many attempts and so many waits, all of them the caller's. -/
structure HistoryOf (c : Caller) (attempts waits : Nat) (h : List BusEvent) : Prop where
  memReads : memReadCount h = attempts
  waits : waitCount h = waits
  caller : ∀ e ∈ h, e.caller = c

theorem historyOf_nil (c : Caller) : HistoryOf c 0 0 [] := ⟨rfl, rfl, by simp⟩

section
variable {m w : Nat} {h : List BusEvent}

theorem HistoryOf.cons_memRead (hh : HistoryOf c m w h) (addr : Word) (count : Nat) (a : Answer) :
    HistoryOf c (m + 1) w (.memRead c addr count a :: h) where
  memReads := (List.countP_cons_of_pos rfl).trans (congrArg _ hh.memReads)
  waits := hh.waits
  caller := List.forall_mem_cons.2 ⟨rfl, hh.caller⟩

theorem HistoryOf.cons_waited (hh : HistoryOf c m w h) : HistoryOf c m (w + 1) (.waited c :: h) where
  memReads := hh.memReads
  waits := (List.countP_cons_of_pos rfl).trans (congrArg _ hh.waits)
  caller := List.forall_mem_cons.2 ⟨rfl, hh.caller⟩

/-- The events of a block's failed attempts, each with the wait after it. -/
def retryEvents (c : Caller) (b : Block) (failed : List Answer) : List BusEvent :=
  failed.flatMap fun a => [.memRead c b.addr b.count a, .waited c]

theorem HistoryOf.append_retryEvents (hh : HistoryOf c m w h) (b : Block) (failed : List Answer) :
    HistoryOf c (failed.length + m) (failed.length + w) (retryEvents c b failed ++ h) := by
  induction failed with
  | nil => simpa [retryEvents] using hh
  | cons a more ih =>
    rw [List.length_cons, Nat.add_right_comm _ 1 m, Nat.add_right_comm _ 1 w]
    exact ih.cons_waited.cons_memRead b.addr b.count a

end

/-! ## Failed attempts -/

/-- The state after failed attempts of the block in progress and the waits after them, with `rest` to come. -/
def State.retried (s : State) (c : Caller) (b : Block) (failed : List Answer) (rest : List Move) : State :=
  { s with agenda := rest, waiting := false, attempt := s.attempt + failed.length, history := s.history ++ retryEvents c b failed }

/-- What a read leaves does not depend on the attempts it has taken, but for the history. -/
theorem State.afterRead_retried (s : State) (failed : List Answer) (resp : Response) (h : List BusEvent) :
    (s.retried c b failed rest).afterRead c resp h = s.afterRead c resp (retryEvents c b failed ++ h) := by
  simp [State.afterRead, State.retried, State.endRead, State.answerTo]

/-- Two moves for a failed attempt before the third: the wait begins and ends. -/
theorem runFor_attemptFailed {a : Answer} (attempting : s.phase = .attempting) (notWaiting : s.waiting = false)
    (job : s.job = some j) (block : j.kind.blocks[s.k]? = some b) (fails : a.wordsOf b.count = none)
    (agenda : s.agenda = .answer a :: .reader :: rest) (hleft : s.attempt < 3) (n : Nat) :
    runFor (n + 2) s = runFor n (s.retried j.caller b [a] rest) := by
  have failed := (step_answer_failed agenda attempting notWaiting job block fails).trans (congrArg _ (if_pos hleft))
  have waited := step_reader_waiting (rest := rest)
    (s := (({ s with agenda := .reader :: rest } : State).record (.memRead j.caller b.addr b.count a)).beginWait)
    rfl attempting rfl job
  rw [runFor_succ_of_next failed, runFor_succ_of_next waited]
  simp [State.record, State.beginWait, State.endWait, State.retried, retryEvents]

/-- The failed attempts of a block that come before its last one. -/
theorem runFor_attemptsFailed (failed : List Answer) (s : State) (attempting : s.phase = .attempting)
    (notWaiting : s.waiting = false) (job : s.job = some j) (block : j.kind.blocks[s.k]? = some b)
    (fails : ∀ a ∈ failed, a.wordsOf b.count = none) (agenda : s.agenda = answersThenReader failed ++ rest)
    (hleft : s.attempt + failed.length ≤ 3) (n : Nat) :
    runFor (n + 2 * failed.length) s = runFor n (s.retried j.caller b failed rest) := by
  induction failed generalizing s with
  | nil =>
    obtain rfl : s.agenda = rest := agenda
    simp [State.retried, retryEvents, ← notWaiting]
  | cons a more ih =>
    rw [List.length_cons] at hleft
    obtain ⟨fails_a, fails_more⟩ := List.forall_mem_cons.1 fails
    have one := runFor_attemptFailed (rest := answersThenReader more ++ rest) attempting notWaiting job block fails_a agenda
      (by omega) (n + 2 * more.length)
    have others := ih (s.retried j.caller b [a] _) attempting rfl job block fails_more rfl
      (by simp only [State.retried, List.length_singleton]; omega)
    rw [List.length_cons, Nat.mul_succ, ← Nat.add_assoc, one, others]
    simp [State.retried, retryEvents, Nat.add_assoc, Nat.add_comm 1]

/-- Two moves for the third failed attempt: the read is over and answered with the block's base address (R147). -/
theorem runFor_exhausted {a : Answer} (attempting : s.phase = .attempting) (notWaiting : s.waiting = false)
    (job : s.job = some j) (block : j.kind.blocks[s.k]? = some b) (fails : a.wordsOf b.count = none)
    (agenda : s.agenda = [.answer a, .reader]) (hthird : s.attempt = 3) :
    runFor 2 s =
      .next (s.afterRead j.caller (.err (.transportError b.addr)) [.memRead j.caller b.addr b.count a]) := by
  have failed := (step_answer_failed agenda attempting notWaiting job block fails).trans (congrArg _ (if_neg (by simp [hthird])))
  exact (runFor_succ_of_next failed).trans (runFor_succ_of_next (step_reader_exhausted rfl rfl job block))

/-! ## A logical read -/

/-- What a read of `kind` that has the words `asm` is answered with when its blocks left come to `out`. -/
def outcomeResponse (kind : ReadKind) (asm : List Word) (out : Except Word (List Word)) : Option Response :=
  match out with
  | .ok ws => readResponse kind (asm ++ ws)
  | .error addr => some (.err (.transportError addr))

theorem outcomeResponse_append (kind : ReadKind) (asm ws : List Word) (out : Except Word (List Word)) :
    outcomeResponse kind (asm ++ ws) out = outcomeResponse kind asm (out.map (ws ++ ·)) := by
  cases out <;> simp [outcomeResponse, Except.map]

theorem answersThenReader_append_cons (failed : List Answer) (a : Answer) (more : List Answer) :
    answersThenReader (failed ++ a :: more) = answersThenReader failed ++ .answer a :: .reader :: answersThenReader more := by
  simp [answersThenReader]

theorem getElem?_and_drop_succ_of_drop_eq_cons {blocks bs : List Block} {k : Nat} (h : blocks.drop k = b :: bs) :
    blocks[k]? = some b ∧ blocks.drop (k + 1) = bs := by
  rw [← List.head?_drop, ← List.tail_drop, h]
  exact ⟨rfl, rfl⟩

/-- From the first attempt of block `k` on, when the procedure reads the blocks left with just these answers, so does the machine, in
two moves an answer. By induction on the trace: each block is its failed attempts, then the attempt that ends the read or leads to
the next block. -/
theorem runFor_logicalReadTrace {blocks : List Block} {answers left : List Answer} {out : Except Word (List Word)} {waits : Nat}
    {resp : Response} (trace : LogicalReadTrace blocks answers out waits left) (noneLeft : left = []) (s : State)
    (attempting : s.phase = .attempting) (notWaiting : s.waiting = false) (job : s.job = some j)
    (blocksLeft : j.kind.blocks.drop s.k = blocks) (someLeft : blocks ≠ []) (firstAttempt : s.attempt = 1)
    (agenda : s.agenda = answersThenReader answers) (response : outcomeResponse j.kind s.asm out = some resp) :
    ∃ h, runFor (2 * answers.length) s = .next (s.afterRead j.caller resp h) ∧ HistoryOf j.caller answers.length waits h := by
  induction trace generalizing s with
  | done => exact absurd rfl someLeft
  | exhausted b bs failed last _ fails two lastFails =>
    obtain ⟨block, -⟩ := getElem?_and_drop_succ_of_drop_eq_cons blocksLeft
    cases response
    subst noneLeft
    have retries := runFor_attemptsFailed failed s attempting notWaiting job block fails
      (agenda.trans (answersThenReader_append_cons ..)) (by omega) 2
    have ends := runFor_exhausted (s := s.retried j.caller b failed _) attempting rfl job block lastFails rfl
      (by simp [State.retried, firstAttempt, two])
    rw [State.afterRead_retried] at ends
    rw [List.length_append, Nat.mul_add, Nat.add_comm (2 * _)]
    exact ⟨_, retries.trans ends, ((historyOf_nil _).cons_memRead ..).append_retryEvents b failed⟩
  | blockRead b bs failed ws more out waits _ fails atMostTwo length tail ih =>
    obtain ⟨block, blocksNext⟩ := getElem?_and_drop_succ_of_drop_eq_cons blocksLeft
    have retries := runFor_attemptsFailed failed s attempting notWaiting job block fails
      (agenda.trans (answersThenReader_append_cons ..)) (by omega) (2 * more.length + 2)
    rw [← outcomeResponse_append] at response
    rw [List.length_append, Nat.mul_add, Nat.add_comm (2 * _), List.length_cons, Nat.mul_succ, retries]
    cases bs with
    | nil =>
      cases tail
      subst noneLeft
      have hlast : ¬ s.k + 1 < j.kind.blocks.length := by simpa using blocksNext
      have ends := runFor_lastBlockAnswered (s := s.retried j.caller b failed _) attempting rfl job block length rfl hlast
        (by simpa [State.retried, outcomeResponse] using response)
      rw [State.afterRead_retried] at ends
      exact ⟨_, ends, ((historyOf_nil _).cons_memRead ..).append_retryEvents b failed⟩
    | cons b' bs' =>
      have hmore : s.k + 1 < j.kind.blocks.length := Nat.lt_of_not_le (mt List.drop_eq_nil_iff.2 (by simp [blocksNext]))
      obtain ⟨h, hrun, hh⟩ := ih noneLeft ((s.retried j.caller b failed _).blockAnswered j.caller b ws _) attempting rfl job
        blocksNext (List.cons_ne_nil _ _) rfl rfl response
      rw [State.afterRead_blockAnswered, State.afterRead_retried] at hrun
      refine ⟨_, .trans ?_ hrun, (hh.cons_memRead ..).append_retryEvents b failed⟩
      exact runFor_blockAnswered (s := s.retried j.caller b failed _) attempting rfl job block length rfl hmore _

/-- The words of a read that succeeds are as many as its decoder wants, so every outcome has a response. -/
theorem exists_outcomeResponse {kind : ReadKind} {answers rest : List Answer} {out : Except Word (List Word)} {waits : Nat}
    (h : logicalRead kind.blocks answers = some (out, waits, rest)) : ∃ resp, outcomeResponse kind [] out = some resp := by
  cases out with
  | ok ws =>
    obtain ⟨_, _, _, _, _, hwords⟩ := logicalReadAttemptsAreBounded _ _ _ _ _ h
    exact exists_readResponse hwords
  | error addr => exact ⟨_, rfl⟩

/-- Settles O46: the operation begins the read (O37), and the machine follows the trace of the procedure on all its blocks. -/
theorem readerRefinesLogicalRead : Obligations.ReaderRefinesLogicalRead := by
  intro i kind s answers out waits reads opened free idle agenda h
  obtain ⟨resp, response⟩ := exists_outcomeResponse h
  obtain ⟨events, hrun, hevents⟩ := runFor_logicalReadTrace (j := ⟨s.caller, kind⟩) (logicalReadTrace_of_eq_some h) rfl
    (s.beginRead _) rfl rfl rfl rfl (List.ne_nil_of_length_pos (blocks_length_pos kind)) rfl agenda response
  refine ⟨_, resp, events, readerOperationTakesTheFreeLock i kind s reads opened free idle, hrun, ?_, hevents.memReads,
    hevents.waits, hevents.caller⟩
  cases out with
  | ok ws => exact response
  | error addr => exact (Option.some.inj response).symm

end Sys2Proof.Machine

/-! PROOFS. The responses a step gives: at most one, and a TransportError only by the reader's action that ends an exhausted read
(46_block_reader.md R147; 60_exceptions.md R165, R173, R174, R181). -/

namespace Sys2Proof.Machine

variable {s t : State} {m : Move} {rest : List Move}

@[simp] theorem blockRead_responses (j : Job) (ws : List Word) (s : State) : (blockRead j ws s).responses = s.responses := by
  unfold blockRead
  split <;> rfl

@[simp] theorem attemptFailed_responses (s : State) : (attemptFailed s).responses = s.responses := by
  unfold attemptFailed
  split <;> rfl

/-- A successful read is answered as a pure operation or with its words, so never with a TransportError (R148-R150). -/
theorem readResponse_ne_transportError {kind : ReadKind} {asm : List Word} {resp : Response}
    (h : readResponse kind asm = some resp) (addr : Word) : resp ≠ .err (.transportError addr) := by
  cases kind with
  | status =>
    obtain ⟨buf, -, response⟩ := Option.map_eq_some_iff.1 h
    exact pureResponse_ne_transportError (i := .decStatus buf) (congrArg some response) addr
  | log =>
    obtain ⟨buf, -, response⟩ := Option.map_eq_some_iff.1 h
    exact pureResponse_ne_transportError (i := .buildLog buf) (congrArg some response) addr
  | block => exact Option.some.inj h ▸ nofun

/-- A move gives no response or one more at the end, and the end of an exhausted read is the only one to give a TransportError. -/
theorem responses_of_stepEffect (h : StepEffect s { s with agenda := rest } m t) :
    t.responses = s.responses ∨
    ∃ c resp, t.responses = s.responses ++ [(c, resp)] ∧
      ∀ addr, resp = .err (.transportError addr) →
        s.phase = .exhausted ∧ t = ({ s with agenda := rest } : State).endRead.answerTo c resp := by
  cases h with
  | nothing | started | queued | connected | acquired | waitEnded => exact .inl rfl
  | attemptOk => exact .inl (blockRead_responses ..)
  | attemptErr => exact .inl (attemptFailed_responses _)
  | answered c _ resp notTransport => exact .inr ⟨c, resp, rfl, fun addr given => absurd given (notTransport addr)⟩
  | readDone j resp _ _ decoded =>
    exact .inr ⟨j.caller, resp, rfl, fun addr given => absurd given (readResponse_ne_transportError decoded addr)⟩
  | readFailed j _ exhausted => exact .inr ⟨j.caller, _, rfl, fun _ _ => ⟨exhausted, rfl⟩⟩

/-- A step that gives a TransportError ends an exhausted read. -/
theorem exhausted_of_transportError {c : Caller} {addr : Word} (h : step s = .next t)
    (given : t.responses = s.responses ++ [(c, .err (.transportError addr))]) :
    s.phase = .exhausted ∧
      ∃ rest, t = ({ s with agenda := rest } : State).endRead.answerTo c (.err (.transportError addr)) := by
  have grows : t.responses ≠ s.responses := by simp [given]
  obtain ⟨-, rfl⟩ | ⟨m, rest, -, heff⟩ := step_effect h
  · exact absurd rfl grows
  · obtain same | ⟨c', resp, hone, hends⟩ := responses_of_stepEffect heff
    · exact absurd same grows
    · obtain ⟨rfl, rfl⟩ : c = c' ∧ .err (.transportError addr) = resp := by simpa [given] using hone
      exact (hends addr rfl).imp_right fun ends => ⟨rest, ends⟩

/-- Settles O53: the step ends an exhausted read, which a consistent reader keeps with no words and with the lock free. -/
theorem transportErrorLeavesTheReaderIdle : Obligations.TransportErrorLeavesTheReaderIdle := by
  intro s t c addr hs h given
  obtain ⟨exhausted, rest, rfl⟩ := exhausted_of_transportError h given
  obtain ⟨_, -, free, -, -, -, noWords⟩ := (readerConsistent_exhausted_iff exhausted).1 hs.reader
  exact ⟨exhausted, noWords, free, rfl, rfl, rfl, rfl, rfl, rfl⟩

/-- Settles O54, by the inversion of `step`. -/
theorem responsesAreNeverWithdrawn : Obligations.ResponsesAreNeverWithdrawn := by
  intro s t h
  obtain ⟨-, rfl⟩ | ⟨m, rest, -, heff⟩ := step_effect h
  · exact .inl rfl
  · exact (responses_of_stepEffect heff).imp_right fun ⟨c, resp, one, _⟩ => ⟨(c, resp), one⟩

end Sys2Proof.Machine

/-! PROOFS. The hazards (70_reset_and_hazards.md R191, R201, R202): two pure operations in either order, what the connection allows and
that it stays open, and that a logical read whose attempts are all answered ends. -/

namespace Sys2Proof.Machine

variable {s t : State} {m : Move} {rest : List Move}

/-! ## Two pure operations (R202) -/

/-- Two operations that only respond, each the same from every state, leave their two responses in the order of their issue. -/
theorem exec_exec_of_responding {i j : Instr} {ri rj : Response} (hi : ∀ s : State, exec i s = .next (s.responding ri))
    (hj : ∀ s : State, exec j s = .next (s.responding rj)) (s : State) (ci cj : Caller) :
    ∃ t u, exec i { s with caller := ci } = .next t ∧ exec j { t with caller := cj } = .next u ∧
      u = { s with caller := cj, responses := s.responses ++ [(ci, ri), (cj, rj)] } :=
  ⟨_, _, hi _, hj _, by simp [State.responding]⟩

/-- Settles O35: each response depends on its own instruction alone (O34), so the other operation's effect does not reach it. -/
theorem pureOperationsCommute : Obligations.PureOperationsCommute := by
  intro i j pure_i pure_j
  obtain ⟨ri, hi⟩ := pureOperationsDependOnOperandsAlone i pure_i
  obtain ⟨rj, hj⟩ := pureOperationsDependOnOperandsAlone j pure_j
  exact ⟨ri, rj, fun s ci cj => ⟨exec_exec_of_responding hi hj s ci cj, exec_exec_of_responding hj hi s cj ci⟩⟩

/-! ## The connection (R191) -/

/-- Settles O39: the three operations are one start of a read, which asks for the connection before anything else. -/
theorem readerOperationNeedsTheConnection : Obligations.ReaderOperationNeedsTheConnection := by
  intro i kind s reads closed
  rw [exec_of_readKindOf reads, startRead_eq, if_pos closed]

/-- Only the boot step writes the connection, and it opens it. -/
theorem conn_eq_opened_of_stepEffect (h : StepEffect s { s with agenda := rest } m t) (opened : s.conn = .opened) :
    t.conn = .opened := by
  cases h with
  | connected => rfl
  | attemptOk => exact (blockRead_conn ..).trans opened
  | attemptErr => exact (attemptFailed_conn _).trans opened
  | nothing | answered | started | queued | acquired | waitEnded | readDone | readFailed => exact opened

/-- Settles O50: the boot step is its own move, and no effect of a move closes the connection. -/
theorem connectOpensForTheLifetime : Obligations.ConnectOpensForTheLifetime := by
  refine ⟨fun s rest agenda => step_cons agenda, fun s t h opened => ?_⟩
  obtain ⟨-, rfl⟩ | ⟨m, rest, -, heff⟩ := step_effect h
  · exact opened
  · exact conn_eq_opened_of_stepEffect heff opened

/-! ## A logical read whose attempts are all answered (R201) -/

/-- As many answers as attempts decide a block. -/
theorem exists_readBlockWithRetry_eq_some (n : Nat) {left : Nat} {answers : List Answer} (enough : left + 1 ≤ answers.length) :
    ∃ r waits rest, readBlockWithRetry n (left + 1) answers = some (r, waits, rest) := by
  induction answers generalizing left with
  | nil => simp at enough
  | cons a more ih =>
    cases ha : a.wordsOf n with
    | some ws => exact ⟨_, _, _, readBlockWithRetry_of_ok ha left more⟩
    | none =>
      cases left with
      | zero => exact ⟨_, _, _, readBlockWithRetry_one_of_failed ha more⟩
      | succ left =>
        obtain ⟨r, waits, rest, hmore⟩ := ih (Nat.le_of_succ_le_succ enough)
        exact ⟨r, waits + 1, rest, by rw [readBlockWithRetry_of_failed ha, hmore, Option.map_some]⟩

/-- Settles O45, by induction on the blocks: three answers decide the first block, which uses at most three, so three for each of the
others are left. -/
theorem answeredLogicalReadsEnd : Obligations.AnsweredLogicalReadsEnd := by
  intro blocks
  induction blocks with
  | nil => exact fun _ _ => rfl
  | cons b bs ih =>
    intro answers enough
    rw [List.length_cons] at enough
    obtain ⟨r, waits, more, hb⟩ := exists_readBlockWithRetry_eq_some b.count (left := 2) (answers := answers) (by omega)
    obtain ⟨failed, last, rfl, -, -, -, atMostTwo, -⟩ := readBlockWithRetry_eq_some hb
    cases r with
    | none => simp [logicalRead, hb, Config.maxAttempts]
    | some ws =>
      rw [logicalRead_cons_of_some bs hb, Option.isSome_map]
      rw [List.length_append, List.length_cons] at enough
      exact ih more (by omega)

end Sys2Proof.Machine
